-- ==== Sys2Proof/Word.lean ====
section
/-! DEFINITION. The bit vectors of the block: stream words, bytes, command and response words
(spec 00_scope.md R9; 30_encoding.md R100, R104). -/

namespace Sys2Proof

/-- A pack word: `W` bits, bit 0 the least significant (R9). -/
abbrev Word := BitVec 64

/-- A byte of a byte stream, the `arg` and `op` fields, `FCODE` and a response status. -/
abbrev Byte := BitVec 8

/-- A command word, `16 + W` bits (R100). -/
abbrev CmdWord := BitVec 80

/-- A response word, `8 + W` bits (R104). -/
abbrev RspWord := BitVec 72

end Sys2Proof
end

