-- ==== Sys2Proof/Machine/State.lean ====
section
/-! DEFINITION. The state of the block (spec 10_state.md R20 to R48), the host's side of the two ports
and of the reset input (R45; 30_encoding.md R97), the reasons a step can stop, and the reset state. -/

namespace Sys2Proof.Machine

/-- Life cycle of the packer (R26). -/
inductive PkState where
  | idle | opened | closed
deriving DecidableEq, Repr

/-- Life cycle of the unpacker (R37). -/
inductive UpState where
  | idle | opened
deriving DecidableEq, Repr

/-- The unpacker's mode (R36). -/
inductive UpMode where
  | sized | unsized
deriving DecidableEq, Repr

/-- The packer's six elements (R21 to R26). `pos` is a natural number (R22 "An integer in
`0 .. W-1`"); its 7-bit range is an invariant (log entry 8). -/
structure Packer where
  /-- `PK.cur`, the accumulator (R21). -/
  cur : Word
  /-- `PK.pos`, the pack position (R22). -/
  pos : Nat
  /-- `PK.total`, the bits-written counter, `CNT_BITS` wide (R23). -/
  total : BitVec 64
  /-- `PK.emitted`: a word has been pushed since the open (R24). -/
  emitted : Bool
  /-- `PK.fin_en`: the close writes the marker (R25). -/
  finEn : Bool
  /-- `PK.state` (R26). -/
  state : PkState
deriving DecidableEq, Repr

/-- The unpacker's eight elements (R30 to R37). `pos` and `valid` are natural numbers (R32, R34
"An integer in `0 .. W`"); their 7-bit range is an invariant (log entry 8). -/
structure Unpacker where
  /-- `UP.cur`, the word being read (R30). -/
  cur : Word
  /-- `UP.next`, the lookahead word (R31). -/
  next : Word
  /-- `UP.pos`, the read position (R32). -/
  pos : Nat
  /-- `UP.final`: `cur` is the last word that holds payload (R33). -/
  final : Bool
  /-- `UP.valid`, valid payload bits of the final word (R34). -/
  valid : Nat
  /-- `UP.src_done`: no word follows `next` (R35). -/
  srcDone : Bool
  /-- `UP.mode` (R36). -/
  mode : UpMode
  /-- `UP.state` (R37). -/
  state : UpState
deriving DecidableEq, Repr

/-- What the host presents to the block at one point of its list (R45, R230; log entry 2). -/
inductive HostEvent where
  /-- a command word on the command port (R97, R100) -/
  | command (w : CmdWord)
  /-- the reset input is asserted (R230) -/
  | reset
deriving DecidableEq, Repr

/-- The whole state: the block's elements of R48, the two inputs of R40, and the host's side. -/
structure State where
  /-- the packer (R21 to R26) -/
  pk : Packer
  /-- the unpacker (R30 to R37) -/
  up : Unpacker
  /-- `FAULT`, sticky (R42) -/
  fault : Bool
  /-- `FCODE` (R43) -/
  fcode : Byte
  /-- `WOUT`, the word sink (R40) -/
  wout : List Word
  /-- `WIN`, the contents of the word source: an input of the run (R40) -/
  win : List Word
  /-- `WIN.rd`, its read cursor (R40) -/
  winRd : Nat
  /-- `BOUT`, the byte sink (R40) -/
  bout : List Byte
  /-- `BIN`, the contents of the byte source: an input of the run (R40) -/
  bin : List Byte
  /-- `BIN.rd`, its read cursor (R40) -/
  binRd : Nat
  /-- the host's list of events (R45, log entry 2); no element of the block -/
  program : List HostEvent
  /-- the host's index into it (R45); no element of the block -/
  index : Nat
  /-- every response delivered so far, oldest first (R97, R98, log entry 7) -/
  responses : List RspWord
deriving DecidableEq, Repr

/-- The eleven fault codes of the block (60_exceptions.md R201). A fault of the block is no stop of the
model: it is a next state (R204). -/
inductive FaultCode where
  | illegalCmd | pkNotOpen | pkAlreadyOpen | pkBadCount | pkCntOverflow | upNotOpen | upBadCount
  | upReadAtEof | upTruncated | upSrcUnderrun | mkBadN
deriving DecidableEq, Repr

/-- The reasons the MODEL stops with a fault. The block's own faults (R201) are not among them. -/
inductive Fault where
  /-- Raised by `wordPop` called on a source at its end, which 00_scope.md R11 calls not defined
  ("Defined only when `WinAtEnd()` is false"). Only the sized advance of R162 step 3 can meet it, and
  only from a state that breaks R38 (b): no run reaches one. Safe (log entry 6). -/
  | wordPopPastEnd
deriving DecidableEq, Repr

/-- The reasons the model refuses an instruction. -/
inductive Refusal where
  /-- Raised by an arm of `exec` whose command has no meaning yet; every command has one, so nothing
  raises it. Safe. -/
  | notModelled (mnemonic : String)
deriving DecidableEq, Repr

/-- Why a command's rule ends without a result. -/
inductive Halt where
  /-- `raise Fault(code)` (R10): the command faults and has no other effect (R204) -/
  | raise (code : FaultCode)
  /-- the rule reached a point the spec does not define -/
  | stuck (reason : Fault)
deriving DecidableEq, Repr

/-- The status of a response (30_encoding.md R104). -/
inductive Status where
  | ok
  | exhausted
  | fault (code : FaultCode)
  | refused
deriving DecidableEq, Repr

/-- What a command that completes answers: a status and its data (R104). -/
structure Reply where
  status : Status
  data : Word
deriving DecidableEq, Repr

/-- The packer right after reset (R48). -/
def Packer.reset : Packer :=
  { cur := 0, pos := 0, total := 0, emitted := false, finEn := true, state := .idle }

/-- The unpacker right after reset (R48). -/
def Unpacker.reset : Unpacker :=
  { cur := 0, next := 0, pos := 0, final := false, valid := 0, srcDone := false, mode := .sized,
    state := .idle }

/-- The machine right after reset: every element at the value of R48 (R230). The inputs, the host's
list and the responses are empty (log entry 5). -/
def State.reset : State :=
  { pk := Packer.reset, up := Unpacker.reset, fault := false, fcode := 0
    wout := [], win := [], winRd := 0, bout := [], bin := [], binRd := 0
    program := [], index := 0, responses := [] }

end Sys2Proof.Machine
end

