-- ==== Sys2Proof/Config.lean ====
section
/-! DEFINITION. The constants of the block (spec 00_scope.md R6, R7): the word width is fixed at 64
(log entry 1) and everything else is derived from it. No value is left free: the spec closes every
open point (92_eei_decisions.md). -/

namespace Sys2Proof.Config

/-- Word width `W` in bits (R6: "This hardware takes W = 64"). -/
@[simp] abbrev W : Nat := 64

/-- Marker field width `F`, `ceil(log2 W)` (R7). -/
@[simp] abbrev F : Nat := 6

/-- `PAYLOAD_BITS`, `W - F` (R7). -/
@[simp] abbrev payloadBits : Nat := 58

/-- `MSHIFT`, the left shift of the marker field, `W - F - 1` (R7, R92). -/
@[simp] abbrev mshift : Nat := 57

/-- `B`, bytes in a word, `W / 8` (R7). -/
@[simp] abbrev bytesPerWord : Nat := 8

/-- `CNT_BITS`, the width of the bits-written counter (R7, R23). -/
@[simp] abbrev cntBits : Nat := 64

/-- `MAX`, the all-ones word, `2^W - 1` (R7). -/
@[simp] abbrev maxWord : BitVec W := BitVec.allOnes W

end Sys2Proof.Config
end

