-- ==== Sys2Proof/Syntax.lean ====
section
/-! DEFINITION. The seventeen commands of the opcode map (spec 30_encoding.md R101), each with the
operands that R102 gives it. Fields a command does not use are no part of it (R103 (b)). -/

namespace Sys2Proof

/-- One command. `count` and `n` are the raw 8-bit `arg` (R102 (a), (f)): values outside `1..W` are
commands too, and the machine faults on them (R209, R213, R217). -/
inductive Instr where
  /-- `PK_OPEN [nofin]` (0x10, R121). -/
  | pkOpen (nofin : Bool)
  /-- `PK_WBIT b` (0x11, R122). -/
  | pkWbit (bit : Bool)
  /-- `PK_WFLD value, count` (0x12, R123). -/
  | pkWfld (value : Word) (count : Byte)
  /-- `PK_FLUSH` (0x13, R124). -/
  | pkFlush
  /-- `PK_CLOSE` (0x14, R126). -/
  | pkClose
  /-- `PK_NBITS -> total` (0x15, R127). -/
  | pkNbits
  /-- `PK_POS -> pos` (0x16, R128). -/
  | pkPos
  /-- `UP_OPEN [unsized]` (0x20, R161). -/
  | upOpen (unsized : Bool)
  /-- `UP_RBIT -> b` (0x21, R163). -/
  | upRbit
  /-- `UP_RFLD count -> value` (0x22, R164). -/
  | upRfld (count : Byte)
  /-- `UP_GOOD -> 0|1` (0x23, R167). -/
  | upGood
  /-- `UP_EOF -> 0|1` (0x24, R168). -/
  | upEof
  /-- `UP_POS -> pos` (0x25, R169). -/
  | upPos
  /-- `MK_ENC n -> word` (0x30, R113). -/
  | mkEnc (n : Byte)
  /-- `MK_DEC word -> n` (0x31, R114). -/
  | mkDec (word : Word)
  /-- `BW_PACK -> word | EXHAUSTED` (0x40, R191). -/
  | bwPack
  /-- `BW_UNPACK word` (0x41, R192). -/
  | bwUnpack (word : Word)
deriving DecidableEq, Repr

end Sys2Proof
end

