-- ==== Sys2Proof/WellFormed.lean ====
section
/-! DEFINITION. The legal operand values (spec 30_encoding.md R102 (a), (f)). An ill-formed command
is still decoded and still has its effect: the operand fault of 60_exceptions.md R209, R213, R217. -/

namespace Sys2Proof

open Config

/-- `1..W`, the legal values of `count` and `n` (R102 (a), (f)). -/
def legalCount (c : Byte) : Bool := 1 ≤ c.toNat && c.toNat ≤ W

/-- Every operand has a legal value. -/
def Instr.wellFormed : Instr → Bool
  | .pkOpen _ => true
  | .pkWbit _ => true
  | .pkWfld _ count => legalCount count
  | .pkFlush => true
  | .pkClose => true
  | .pkNbits => true
  | .pkPos => true
  | .upOpen _ => true
  | .upRbit => true
  | .upRfld count => legalCount count
  | .upGood => true
  | .upEof => true
  | .upPos => true
  | .mkEnc n => legalCount n
  | .mkDec _ => true
  | .bwPack => true
  | .bwUnpack _ => true

end Sys2Proof
end

