-- ==== Sys2Proof/Decode.lean ====
section
/-! DEFINITION. The command decoder and encoder (spec 30_encoding.md R100 to R103, opcode_table.json),
the assembler text of R105, and the host's entry `decodeTableWord`. -/

namespace Sys2Proof

/-- The `op` field, bits 7..0 of a command word (R100). -/
def opField (w : CmdWord) : Byte := w.extractLsb' 0 8

/-- The `arg` field, bits 15..8 of a command word (R100). -/
def argField (w : CmdWord) : Byte := w.extractLsb' 8 8

/-- The `value` field, bits 79..16 of a command word (R100). -/
def valueField (w : CmdWord) : Word := w.extractLsb' 16 64

/-- The command word with these three fields, `value` in the high bits (R100). -/
def cmdWord (value : Word) (arg op : Byte) : CmdWord :=
  value ++ arg ++ op

/-- Why a command word is no command: its opcode is not in the map of R101. -/
inductive DecodeError where
  | unknownOpcode (op : Byte)
deriving DecidableEq, Repr

/-- The decoder: the opcode alone selects the command (R98, R103 (b)), R102 assembles its operands,
and every other opcode is rejected by name (R103 (a)). -/
def decode (w : CmdWord) : Except DecodeError Instr :=
  let arg := argField w
  let value := valueField w
  match (opField w).toNat with
  | 0x10 => .ok (.pkOpen (arg.getLsbD 0))
  | 0x11 => .ok (.pkWbit (value.getLsbD 0))
  | 0x12 => .ok (.pkWfld value arg)
  | 0x13 => .ok .pkFlush
  | 0x14 => .ok .pkClose
  | 0x15 => .ok .pkNbits
  | 0x16 => .ok .pkPos
  | 0x20 => .ok (.upOpen (arg.getLsbD 0))
  | 0x21 => .ok .upRbit
  | 0x22 => .ok (.upRfld arg)
  | 0x23 => .ok .upGood
  | 0x24 => .ok .upEof
  | 0x25 => .ok .upPos
  | 0x30 => .ok (.mkEnc arg)
  | 0x31 => .ok (.mkDec value)
  | 0x40 => .ok .bwPack
  | 0x41 => .ok (.bwUnpack value)
  | _ => .error (.unknownOpcode (opField w))

/-- A one-bit operand as an 8-bit `arg`. -/
def argOfBool (b : Bool) : Byte := if b then 1 else 0

/-- A one-bit operand as a 64-bit `value`. -/
def valueOfBool (b : Bool) : Word := if b then 1 else 0

/-- The opcode of a command (R101). -/
def Instr.opcode : Instr → Byte
  | .pkOpen _ => 0x10
  | .pkWbit _ => 0x11
  | .pkWfld _ _ => 0x12
  | .pkFlush => 0x13
  | .pkClose => 0x14
  | .pkNbits => 0x15
  | .pkPos => 0x16
  | .upOpen _ => 0x20
  | .upRbit => 0x21
  | .upRfld _ => 0x22
  | .upGood => 0x23
  | .upEof => 0x24
  | .upPos => 0x25
  | .mkEnc _ => 0x30
  | .mkDec _ => 0x31
  | .bwPack => 0x40
  | .bwUnpack _ => 0x41

/-- The `arg` the encoder writes: the operand of R101, 0 where the command uses none
(log entry 12). -/
def Instr.arg : Instr → Byte
  | .pkOpen nofin => argOfBool nofin
  | .pkWfld _ count => count
  | .upOpen unsized => argOfBool unsized
  | .upRfld count => count
  | .mkEnc n => n
  | .pkWbit _ | .pkFlush | .pkClose | .pkNbits | .pkPos | .upRbit | .upGood | .upEof | .upPos
  | .mkDec _ | .bwPack | .bwUnpack _ => 0

/-- The `value` the encoder writes: the operand of R101, 0 where the command uses none
(log entry 12). -/
def Instr.value : Instr → Word
  | .pkWbit bit => valueOfBool bit
  | .pkWfld value _ => value
  | .mkDec word => word
  | .bwUnpack word => word
  | .pkOpen _ | .pkFlush | .pkClose | .pkNbits | .pkPos | .upOpen _ | .upRbit | .upRfld _
  | .upGood | .upEof | .upPos | .mkEnc _ | .bwPack => 0

/-- The encoder (R100 to R102): unused fields are written as 0. -/
def encode (i : Instr) : CmdWord := cmdWord i.value i.arg i.opcode

/-- The bits of a command word that its decoding depends on: the opcode byte and the operand bits of
R102; the others are ignored (R103 (b)). -/
def Instr.usedBits : Instr → CmdWord
  | .pkOpen _ => cmdWord 0 1 0xFF
  | .pkWbit _ => cmdWord 1 0 0xFF
  | .pkWfld _ _ => cmdWord Config.maxWord 0xFF 0xFF
  | .upOpen _ => cmdWord 0 1 0xFF
  | .upRfld _ => cmdWord 0 0xFF 0xFF
  | .mkEnc _ => cmdWord 0 0xFF 0xFF
  | .mkDec _ => cmdWord Config.maxWord 0 0xFF
  | .bwUnpack _ => cmdWord Config.maxWord 0 0xFF
  | .pkFlush | .pkClose | .pkNbits | .pkPos | .upRbit | .upGood | .upEof | .upPos | .bwPack =>
    cmdWord 0 0 0xFF

/-- The assembler text of a command (R105), numbers in decimal; a result is not part of the text. -/
def Instr.asm : Instr → String
  | .pkOpen nofin => if nofin then "PK_OPEN nofin" else "PK_OPEN"
  | .pkWbit bit => if bit then "PK_WBIT 1" else "PK_WBIT 0"
  | .pkWfld value count => "PK_WFLD " ++ toString value.toNat ++ ", " ++ toString count.toNat
  | .pkFlush => "PK_FLUSH"
  | .pkClose => "PK_CLOSE"
  | .pkNbits => "PK_NBITS"
  | .pkPos => "PK_POS"
  | .upOpen unsized => if unsized then "UP_OPEN unsized" else "UP_OPEN"
  | .upRbit => "UP_RBIT"
  | .upRfld count => "UP_RFLD " ++ toString count.toNat
  | .upGood => "UP_GOOD"
  | .upEof => "UP_EOF"
  | .upPos => "UP_POS"
  | .mkEnc n => "MK_ENC " ++ toString n.toNat
  | .mkDec word => "MK_DEC " ++ toString word.toNat
  | .bwPack => "BW_PACK"
  | .bwUnpack word => "BW_UNPACK " ++ toString word.toNat

/-- The decoder as the host's table asks for it: `w` holds the `nbits` low bits of a command word,
numbered as the table numbers them, and every bit above them is 0. A row of more than 80 bits is no
command (log entry 13). -/
def decodeTableWord (nbits w : Nat) : Option Instr :=
  if nbits ≤ 80 then
    match decode (BitVec.ofNat 80 (w % 2 ^ nbits)) with
    | .ok i => some i
    | .error _ => none
  else none

end Sys2Proof
end

