-- ==== Sys2Proof/Machine/Operands.lean ====
section
/-! DEFINITION. The operand forms of the commands (spec 30_encoding.md R102) and the bit selection of
00_scope.md R10. -/

namespace Sys2Proof.Machine

open Config

/-- `low(v, k)`, the `k` low bits of a word (R10). -/
def low (v : Word) (k : Nat) : Word := BitVec.ofNat 64 (v.toNat % 2 ^ k)

/-- A one-bit operand as the bit it writes: `value[0]` of `PK_WBIT` (R102 (c)). -/
def bitOperand (b : Bool) : Word := if b then 1 else 0

/-- `count` and `n`: `arg` as an unsigned integer `0 .. 255` (R102 (a), (f)). -/
def countOperand (arg : Byte) : Nat := arg.toNat

/-- The operand check of `count` and `n`: `0`, or more than `W` (R102 (a), (f)). -/
def badCount (arg : Byte) : Bool := countOperand arg == 0 || W < countOperand arg

/-- A count or position as response data, zero-extended to `W` bits (R104). -/
def dataOfNat (n : Nat) : Word := BitVec.ofNat 64 n

/-- A condition as response data, 0 or 1 (R101). -/
def dataOfBool (b : Bool) : Word := if b then 1 else 0

end Sys2Proof.Machine
end

