-- ==== Sys2Proof/Machine/WireFormat.lean ====
section
/-! DEFINITION. The wire format: the end-of-stream marker (spec 40_eos_marker.md R111, R112, R116), the
byte form of words (20_memory.md R65; 43_byte_word_converter.md R193), and the word form of a bit stream
(20_memory.md R62 to R64; 30_encoding.md R91 to R95). -/

namespace Sys2Proof.Machine

open Config

/-- `encode(n)`, the marker word of a count `1..W` (R111). -/
def encodeMarker (n : Nat) : Word := BitVec.ofNat 64 ((n - 1) <<< mshift)

/-- `decode(w)`, the count `1..W` that a word announces (R112); total on every word. -/
def decodeMarker (w : Word) : Nat :=
  let v := ((w.toNat >>> mshift) + 1) % W
  if v = 0 then W else v

/-- `is_extra(n)`: a marker of this count stands in a word of its own (R116). -/
def isExtra (n : Nat) : Bool := payloadBits ≤ n

/-- Byte `k` of a word on a byte stream, `k = 0` first and most significant: bits
`W-1-8k .. W-8-8k` (R65). -/
def byteOfWord (w : Word) (k : Nat) : Byte := w.extractLsb' (W - 8 - 8 * k) 8

/-- The `B` bytes of a word, most significant first (R65, R192). -/
def wordBytes (w : Word) : List Byte := (List.range bytesPerWord).map (byteOfWord w)

/-- One more byte into the word being assembled: `(acc << 8) | b` (R191). -/
def shiftInByte (acc : Word) (b : Byte) : Word := acc <<< 8 ||| b.setWidth 64

/-- The word that bytes assemble to, the first byte highest (R191). -/
def wordOfBytes (bs : List Byte) : Word := bs.foldl shiftInByte 0

/-- `bytes_of_words` (R193). -/
def bytesOfWords (ws : List Word) : List Byte := ws.flatMap wordBytes

/-- `words_of_bytes` (R193): whole groups of `B` bytes, a short tail is lost (R194 (d)). -/
def wordsOfBytes : List Byte → List Word
  | b0 :: b1 :: b2 :: b3 :: b4 :: b5 :: b6 :: b7 :: rest =>
    wordOfBytes [b0, b1, b2, b3, b4, b5, b6, b7] :: wordsOfBytes rest
  | _ => []

/-- The bits of a field in stream order, least significant first (R63). -/
def fieldBits (value : Word) (count : Nat) : List Bool := (List.range count).map value.getLsbD

/-- A list of bits as a number, the first bit least significant. -/
def natOfBits : List Bool → Nat
  | [] => 0
  | b :: bs => b.toNat + 2 * natOfBits bs

/-- A word whose low bits are these, zero above: position `p` is bit `p` (R62). -/
def wordOfBits (bs : List Bool) : Word := BitVec.ofNat 64 (natOfBits bs)

/-- The full payload words of a bit stream: bit `t` is bit `t mod W` of word `t / W` (R64, R91). -/
def fullWords (bits : List Bool) : List Word :=
  (List.range (bits.length / W)).map fun j => wordOfBits ((bits.drop (W * j)).take W)

/-- The bits after the last full word. -/
def tailBits (bits : List Bool) : List Bool := bits.drop (W * (bits.length / W))

/-- The words of a finalized stream with this payload (R94, by `T mod W`). -/
def finalizedWords (bits : List Bool) : List Word :=
  let r := bits.length % W
  let last := wordOfBits (tailBits bits)
  if bits.length = 0 then []
  else if r = 0 then fullWords bits ++ [encodeMarker W]
  else if r < payloadBits then fullWords bits ++ [last ||| encodeMarker r]
  else fullWords bits ++ [last, encodeMarker r]

/-- The words of an unfinalized stream with this payload: no marker, the last word zero-padded
(R95). -/
def unfinalizedWords (bits : List Bool) : List Word :=
  if bits.length % W = 0 then fullWords bits else fullWords bits ++ [wordOfBits (tailBits bits)]

end Sys2Proof.Machine
end

