-- ==== Sys2Proof/Machine/Flags.lean ====
section
/-! DEFINITION. The conditions of the block. It has no arithmetic condition codes (spec 10_state.md R44);
what takes their place are the derived conditions `good` and `eof` (42_unpacker.md R166), the
truncation test (R164), the at-end tests (00_scope.md R11) and the counter's overflow test (R211). -/

namespace Sys2Proof.Machine

open Config

/-- `WinAtEnd()` (R11). -/
def State.winAtEnd (s : State) : Bool := s.win.length ≤ s.winRd

/-- `BinAtEnd()` (R11). -/
def State.binAtEnd (s : State) : Bool := s.bin.length ≤ s.binRd

/-- `good` (R166). -/
def Unpacker.good (u : Unpacker) : Bool := !u.final || u.pos < u.valid

/-- `eof` (R166). -/
def Unpacker.eof (u : Unpacker) : Bool := u.final && u.valid ≤ u.pos

/-- Sized mode at its end: the check of `UP_READ_AT_EOF` (R163, R164, R214). -/
def Unpacker.sizedEof (u : Unpacker) : Bool := u.mode == .sized && u.eof

/-- The read went past the last valid bit: the second condition of a truncated field (R164 (ii)). -/
def Unpacker.overrun (u : Unpacker) : Bool := u.mode == .sized && u.final && u.valid < u.pos

/-- The bits-written counter would exceed `2^CNT_BITS - 1` (R122, R123, R211). -/
def Packer.wouldOverflow (p : Packer) (count : Nat) : Bool :=
  2 ^ cntBits - 1 < p.total.toNat + count

end Sys2Proof.Machine
end

