-- ==== Sys2Proof/Machine/Ops.lean ====
section
/-! DEFINITION. The shared operations: the stream primitives (spec 00_scope.md R11), responses
(30_encoding.md R104), fault entry and refusal (60_exceptions.md R204, R205, R218), reset
(70_reset_and_hazards.md R230), the packer's emission and writes (41_packer.md R122 to R126), the
unpacker's advance and reads (42_unpacker.md R162 to R164), the converter's transfers (R191, R192), and
the command port. -/

namespace Sys2Proof.Machine

open Config

/-! ### Field updates -/

/-- Write the packer's elements. -/
def State.setPk (s : State) (p : Packer) : State := { s with pk := p }

/-- Write the unpacker's elements. -/
def State.setUp (s : State) (u : Unpacker) : State := { s with up := u }

/-- `WordPush(w)` (R11): append to `WOUT`. -/
def State.wordPush (s : State) (w : Word) : State := { s with wout := s.wout ++ [w] }

/-- `BytePush(b)` (R11): append to `BOUT`. -/
def State.bytePush (s : State) (b : Byte) : State := { s with bout := s.bout ++ [b] }

/-- Move `WIN.rd` by one. -/
def State.winStep (s : State) : State := { s with winRd := s.winRd + 1 }

/-- Move `BIN.rd` by one. -/
def State.binStep (s : State) : State := { s with binRd := s.binRd + 1 }

/-- Deliver one response word (R97, R98). -/
def State.answer (s : State) (r : RspWord) : State := { s with responses := s.responses ++ [r] }

/-- `FAULT <- 1; FCODE <- code` (R204). -/
def State.setFault (s : State) (code : Byte) : State := { s with fault := true, fcode := code }

/-- The host's index moves by one (R45). -/
def State.tick (s : State) : State := { s with index := s.index + 1 }

/-! ### Stream primitives -/

/-- `WordPop()` (R11): the next word of `WIN` and the state with the cursor moved; none at the end,
where R11 does not define it. -/
def State.wordPop (s : State) : Option (Word × State) :=
  match s.win[s.winRd]? with
  | some w => some (w, s.winStep)
  | none => none

/-- `BytePop()` (R11), none at the end. -/
def State.bytePop (s : State) : Option (Byte × State) :=
  match s.bin[s.binRd]? with
  | some b => some (b, s.binStep)
  | none => none

/-! ### Responses, fault entry, refusal -/

/-- The code of a fault (R201). -/
def FaultCode.code : FaultCode → Byte
  | .illegalCmd => 0x01
  | .pkNotOpen => 0x02
  | .pkAlreadyOpen => 0x03
  | .pkBadCount => 0x04
  | .pkCntOverflow => 0x05
  | .upNotOpen => 0x06
  | .upBadCount => 0x07
  | .upReadAtEof => 0x08
  | .upTruncated => 0x09
  | .upSrcUnderrun => 0x0A
  | .mkBadN => 0x0B

/-- The status byte (R104): a fault answers `0x80 + code`. -/
def Status.byte : Status → Byte
  | .ok => 0x00
  | .exhausted => 0x01
  | .fault c => 0x80 + c.code
  | .refused => 0xFF

/-- The response word `data : status` (R104). -/
def rspWord (status : Status) (data : Word) : RspWord :=
  data ++ status.byte

/-- Answer with a status and data (R98, R104). -/
def State.respond (s : State) (status : Status) (data : Word) : State :=
  s.answer (rspWord status data)

/-- Fault entry (R203, R204): the two fault elements and the response, and nothing else. -/
def takeFault (c : FaultCode) (s : State) : State := (s.setFault c.code).respond (.fault c) 0

/-- Refusal by a faulted block (R205): nothing changes and `FCODE` is the data. -/
def refuse (s : State) : State := s.respond .refused (s.fcode.setWidth 64)

/-- What a command's rule gives: the state after it and its reply, or why it ends without one. -/
abbrev Result := Except Halt (State × Reply)

/-- `raise Fault(code)` (R10). -/
def raise (c : FaultCode) : Result := .error (.raise c)

/-- `return data` with status `OK` (R10, R104). -/
def reply (s : State) (data : Word) : Result := .ok (s, { status := .ok, data := data })

/-- End a command: respond, enter the fault (from the state BEFORE the command, R204), or stop. -/
def conclude (s : State) : Result → Host.Outcome State Fault Refusal
  | .ok (t, r) => .next (t.respond r.status r.data)
  | .error (.raise c) => .next (takeFault c s)
  | .error (.stuck f) => .fault f

/-- One command: refused if the block is faulted (R205, R218 check 1), otherwise its own rule. -/
def command (s : State) (rule : State → Result) : Host.Outcome State Fault Refusal :=
  if s.fault then .next (refuse s) else conclude s (rule s)

/-- A command word with an unknown opcode (R103 (a), R206; R218 check 2). -/
def illegalCommand (s : State) : Host.Outcome State Fault Refusal :=
  command s fun _ => raise .illegalCmd

/-! ### Reset -/

/-- Reset (R230): every element of R48 at its reset value, without a response. The inputs, the host's
list and index and the responses already delivered are not the block's (log entry 4). -/
def State.applyReset (s : State) : State :=
  { State.reset with
    win := s.win, bin := s.bin, program := s.program, index := s.index, responses := s.responses }

/-- A run's starting point: the machine after reset with the inputs and the host's list given
(R40 "parameters of a run"; R45). -/
def State.boot (win : List Word) (bin : List Byte) (program : List HostEvent) : State :=
  { State.reset with win := win, bin := bin, program := program }

/-! ### The packer -/

/-- `Emit()` (R125). -/
def emit (s : State) : State :=
  (s.wordPush s.pk.cur).setPk { s.pk with emitted := true, cur := 0, pos := 0 }

/-- The packer accepts a write, flush or close (R122 to R126: check 1). -/
def Packer.isOpen (p : Packer) : Bool := p.state == .opened

/-- The write of one bit, after its checks (R122). -/
def writeBit (b : Bool) (s : State) : State :=
  let t := s.setPk { s.pk with
    cur := s.pk.cur ||| bitOperand b <<< s.pk.pos
    pos := s.pk.pos + 1
    total := s.pk.total + 1 }
  if t.pk.pos = W then emit t else t

/-- Add a field's width to `PK.total` (R123, last line). -/
def addTotal (count : Nat) (s : State) : State :=
  s.setPk { s.pk with total := s.pk.total + BitVec.ofNat 64 count }

/-- The write of a field, after its checks (R123): it fits below the word's end, it ends there, or it
straddles two words. -/
def writeField (value : Word) (count : Nat) (s : State) : State :=
  let v := low value count
  let avail := W - s.pk.pos
  if count < avail then
    addTotal count (s.setPk { s.pk with
      cur := s.pk.cur ||| v <<< s.pk.pos, pos := s.pk.pos + count })
  else if count = avail then
    addTotal count (emit (s.setPk { s.pk with cur := s.pk.cur ||| v <<< s.pk.pos }))
  else
    let t := emit (s.setPk { s.pk with cur := s.pk.cur ||| low v avail <<< s.pk.pos })
    addTotal count (t.setPk { t.pk with cur := v >>> avail, pos := count - avail })

/-- Emit the partial word, if there is one (R124; R126 with finalization disabled). -/
def flushPartial (s : State) : State := if 0 < s.pk.pos then emit s else s

/-- Finalization (R126 with `PK.fin_en = 1`): nothing for an entirely empty stream; else the marker, in
the partial word or in a word of its own. The count is taken before any emission. -/
def finalize (s : State) : State :=
  let i := s.pk.pos
  if !s.pk.emitted && i == 0 then s
  else
    let m := encodeMarker (if 0 < i then i else W)
    let t := if payloadBits ≤ i then emit s else s
    emit (t.setPk { t.pk with cur := t.pk.cur ||| m })

/-- The close, after its check (R126). -/
def closePacker (s : State) : State :=
  let t := if s.pk.finEn then finalize s else flushPartial s
  t.setPk { t.pk with state := .closed }

/-! ### The unpacker -/

/-- `Advance()` in sized mode (R162 steps 1 to 4). -/
def advanceSized (s : State) : Except Halt State :=
  let u := { s.up with cur := s.up.next, pos := 0 }
  if u.srcDone then
    .ok (s.setUp { u with valid := decodeMarker u.cur, final := true })
  else
    match s.wordPop with
    | none => .error (.stuck .wordPopPastEnd)
    | some (w, t) =>
      let u := { u with next := w, srcDone := t.winAtEnd }
      if u.srcDone && isExtra (decodeMarker w) then
        .ok (t.setUp { u with valid := decodeMarker w, final := true })
      else .ok (t.setUp u)

/-- `Advance()` in unsized mode (R162 steps 1u, 2u). -/
def advanceUnsized (s : State) : Except Halt State :=
  match s.wordPop with
  | none => .error (.raise .upSrcUnderrun)
  | some (w, t) => .ok (t.setUp { s.up with cur := w, pos := 0 })

/-- `Advance()` (R162). -/
def advance (s : State) : Except Halt State :=
  match s.up.mode with
  | .sized => advanceSized s
  | .unsized => advanceUnsized s

/-- The unpacker as `UP_OPEN` leaves it before any pop (R161). -/
def openedUnpacker (mode : UpMode) (pos : Nat) : Unpacker :=
  { cur := 0, next := 0, pos := pos, final := false, valid := 0, srcDone := false, mode := mode,
    state := .opened }

/-- `UP_OPEN` in sized mode (R161): at once final on an empty input, else the first word goes into the
lookahead and one advance follows. -/
def openSized (s : State) : Except Halt State :=
  let u := openedUnpacker .sized 0
  match s.wordPop with
  | none => .ok (s.setUp { u with srcDone := true, final := true, valid := 0 })
  | some (w, t) => advanceSized (t.setUp { u with next := w, srcDone := t.winAtEnd })

/-- The lazy advance that a read begins with (R163, R164): only at the end of the word. -/
def lazyAdvance (s : State) : Except Halt State :=
  if W ≤ s.up.pos then advance s else .ok s

/-- The read of one bit, after its checks (R163). -/
def readBit (s : State) : Result :=
  match lazyAdvance s with
  | .error h => .error h
  | .ok t =>
    reply (t.setUp { t.up with pos := t.up.pos + 1 }) (dataOfBool (t.up.cur.getLsbD t.up.pos))

/-- An advance that a field read calls for: with the final word already reached in sized mode the
field is truncated (R164 (i)). -/
def fieldAdvance (s : State) : Except Halt State :=
  if s.up.mode == .sized && s.up.final then .error (.raise .upTruncated) else advance s

/-- The lazy advance at the top of a field read (R164). -/
def fieldLazyAdvance (s : State) : Except Halt State :=
  if W ≤ s.up.pos then fieldAdvance s else .ok s

/-- The end of a field read: truncated if it went past the last valid bit (R164 (ii)). -/
def finishField (s : State) (data : Word) : Result :=
  if s.up.overrun then raise .upTruncated else reply s data

/-- The extraction of a field from the state after the lazy advance (R164): inside the word, or
straddling into the next. -/
def extractField (count : Nat) (s : State) : Result :=
  let p := s.up.pos
  let avail := W - p
  if count ≤ avail then
    finishField (s.setUp { s.up with pos := p + count }) (low (s.up.cur >>> p) count)
  else
    let lo := s.up.cur >>> p
    match fieldAdvance s with
    | .error h => .error h
    | .ok t =>
      let rem := count - avail
      finishField (t.setUp { t.up with pos := rem }) (lo ||| low t.up.cur rem <<< avail)

/-- The read of a field, after its checks (R164). -/
def readField (count : Nat) (s : State) : Result :=
  match fieldLazyAdvance s with
  | .error h => .error h
  | .ok t => extractField count t

/-! ### The byte/word converter -/

/-- The loop of `BW_PACK` (R191), at most `fuel` more bytes: the word so far, how many bytes were
popped, and the state after them. -/
def popBytes : Nat → Word → Nat → State → Word × Nat × State
  | 0, acc, k, s => (acc, k, s)
  | fuel + 1, acc, k, s =>
    match s.bytePop with
    | none => (acc, k, s)
    | some (b, t) => popBytes fuel (shiftInByte acc b) (k + 1) t

/-- Push the bytes in order (R192). -/
def pushBytes (bs : List Byte) (s : State) : State := bs.foldl State.bytePush s

/-! ### The command port -/

/-- The host's event at its index, none when the host presents nothing (R45, R231). -/
def State.pending (s : State) : Option HostEvent := s.program[s.index]?

/-- The host's list with one event put at position `i` (and the unused positions below it, if the list
is shorter, filled with resets that are never reached). -/
def placeEvent (e : HostEvent) (i : Nat) (es : List HostEvent) : List HostEvent :=
  es.take i ++ List.replicate (i - es.length) .reset ++ e :: es.drop (i + 1)

end Sys2Proof.Machine
end

