-- ==== Sys2Proof/Machine/Converter.lean ====
section
/-! DEFINITION. The two commands of the byte/word converter (spec 43_byte_word_converter.md R191,
R192). -/

namespace Sys2Proof.Machine

open Config

/-- `BW_PACK -> word | EXHAUSTED` (R191): a short tail is popped and dropped. -/
def execBwPack (s : State) : Host.Outcome State Fault Refusal :=
  command s fun s =>
    match popBytes bytesPerWord 0 0 s with
    | (acc, k, t) =>
      if k = bytesPerWord then reply t acc
      else .ok (t, { status := .exhausted, data := 0 })

/-- `BW_UNPACK word` (R192). -/
def execBwUnpack (word : Word) (s : State) : Host.Outcome State Fault Refusal :=
  command s fun s => reply (pushBytes (wordBytes word) s) 0

end Sys2Proof.Machine
end

