-- ==== Sys2Proof/Machine/Marker.lean ====
section
/-! DEFINITION. The two marker commands (spec 40_eos_marker.md R113, R114). -/

namespace Sys2Proof.Machine

/-- `MK_ENC n -> word` (R113). -/
def execMkEnc (n : Byte) (s : State) : Host.Outcome State Fault Refusal :=
  command s fun s =>
    if badCount n then raise .mkBadN else reply s (encodeMarker (countOperand n))

/-- `MK_DEC word -> n` (R114). -/
def execMkDec (word : Word) (s : State) : Host.Outcome State Fault Refusal :=
  command s fun s => reply s (dataOfNat (decodeMarker word))

end Sys2Proof.Machine
end

