-- ==== Sys2Proof/Machine/Packer.lean ====
section
/-! DEFINITION. The seven packer commands (spec 41_packer.md), each with its checks in the order of its
rule and of 60_exceptions.md R218. -/

namespace Sys2Proof.Machine

/-- `PK_OPEN [nofin]` (R121). -/
def execPkOpen (nofin : Bool) (s : State) : Host.Outcome State Fault Refusal :=
  command s fun s =>
    if s.pk.isOpen then raise .pkAlreadyOpen
    else
      reply (s.setPk { cur := 0, pos := 0, total := 0, emitted := false, finEn := !nofin,
                       state := .opened }) 0

/-- `PK_WBIT b` (R122). -/
def execPkWbit (bit : Bool) (s : State) : Host.Outcome State Fault Refusal :=
  command s fun s =>
    if !s.pk.isOpen then raise .pkNotOpen
    else if s.pk.wouldOverflow 1 then raise .pkCntOverflow
    else reply (writeBit bit s) 0

/-- `PK_WFLD value, count` (R123). -/
def execPkWfld (value : Word) (count : Byte) (s : State) : Host.Outcome State Fault Refusal :=
  command s fun s =>
    if !s.pk.isOpen then raise .pkNotOpen
    else if badCount count then raise .pkBadCount
    else if s.pk.wouldOverflow (countOperand count) then raise .pkCntOverflow
    else reply (writeField value (countOperand count) s) 0

/-- `PK_FLUSH` (R124). -/
def execPkFlush (s : State) : Host.Outcome State Fault Refusal :=
  command s fun s =>
    if !s.pk.isOpen then raise .pkNotOpen else reply (flushPartial s) 0

/-- `PK_CLOSE` (R126). -/
def execPkClose (s : State) : Host.Outcome State Fault Refusal :=
  command s fun s =>
    if !s.pk.isOpen then raise .pkNotOpen else reply (closePacker s) 0

/-- `PK_NBITS -> total` (R127). -/
def execPkNbits (s : State) : Host.Outcome State Fault Refusal :=
  command s fun s =>
    if s.pk.state == .idle then raise .pkNotOpen else reply s s.pk.total

/-- `PK_POS -> pos` (R128). -/
def execPkPos (s : State) : Host.Outcome State Fault Refusal :=
  command s fun s =>
    if s.pk.state == .idle then raise .pkNotOpen else reply s (dataOfNat s.pk.pos)

end Sys2Proof.Machine
end

