-- ==== Sys2Proof/Machine/Unpacker.lean ====
section
/-! DEFINITION. The six unpacker commands (spec 42_unpacker.md), each with its checks in the order of
its rule and of 60_exceptions.md R218. -/

namespace Sys2Proof.Machine

open Config

/-- The unpacker accepts a read or a query (R163 to R169: check 1). -/
def Unpacker.isOpen (u : Unpacker) : Bool := u.state == .opened

/-- `UP_OPEN [unsized]` (R161). -/
def execUpOpen (unsized : Bool) (s : State) : Host.Outcome State Fault Refusal :=
  command s fun s =>
    if unsized then reply (s.setUp (openedUnpacker .unsized W)) 0
    else
      match openSized s with
      | .ok t => reply t 0
      | .error h => .error h

/-- `UP_RBIT -> b` (R163). -/
def execUpRbit (s : State) : Host.Outcome State Fault Refusal :=
  command s fun s =>
    if !s.up.isOpen then raise .upNotOpen
    else if s.up.sizedEof then raise .upReadAtEof
    else readBit s

/-- `UP_RFLD count -> value` (R164). -/
def execUpRfld (count : Byte) (s : State) : Host.Outcome State Fault Refusal :=
  command s fun s =>
    if !s.up.isOpen then raise .upNotOpen
    else if badCount count then raise .upBadCount
    else if s.up.sizedEof then raise .upReadAtEof
    else readField (countOperand count) s

/-- `UP_GOOD -> 0|1` (R167). -/
def execUpGood (s : State) : Host.Outcome State Fault Refusal :=
  command s fun s =>
    if !s.up.isOpen then raise .upNotOpen else reply s (dataOfBool s.up.good)

/-- `UP_EOF -> 0|1` (R168). -/
def execUpEof (s : State) : Host.Outcome State Fault Refusal :=
  command s fun s =>
    if !s.up.isOpen then raise .upNotOpen else reply s (dataOfBool s.up.eof)

/-- `UP_POS -> pos` (R169). -/
def execUpPos (s : State) : Host.Outcome State Fault Refusal :=
  command s fun s =>
    if !s.up.isOpen then raise .upNotOpen else reply s (dataOfNat s.up.pos)

end Sys2Proof.Machine
end

