-- ==== Sys2Proof/Machine/Dispatch.lean ====
section
/-! DEFINITION. One arm per command (spec 30_encoding.md R98: the rule is selected by the opcode). -/

namespace Sys2Proof.Machine

def exec (i : Instr) (s : State) : Host.Outcome State Fault Refusal :=
  match i with
  | .pkOpen nofin => Sys2Proof.Machine.execPkOpen nofin s
  | .pkWbit bit => Sys2Proof.Machine.execPkWbit bit s
  | .pkWfld value count => Sys2Proof.Machine.execPkWfld value count s
  | .pkFlush => Sys2Proof.Machine.execPkFlush s
  | .pkClose => Sys2Proof.Machine.execPkClose s
  | .pkNbits => Sys2Proof.Machine.execPkNbits s
  | .pkPos => Sys2Proof.Machine.execPkPos s
  | .upOpen unsized => Sys2Proof.Machine.execUpOpen unsized s
  | .upRbit => Sys2Proof.Machine.execUpRbit s
  | .upRfld count => Sys2Proof.Machine.execUpRfld count s
  | .upGood => Sys2Proof.Machine.execUpGood s
  | .upEof => Sys2Proof.Machine.execUpEof s
  | .upPos => Sys2Proof.Machine.execUpPos s
  | .mkEnc n => Sys2Proof.Machine.execMkEnc n s
  | .mkDec word => Sys2Proof.Machine.execMkDec word s
  | .bwPack => Sys2Proof.Machine.execBwPack s
  | .bwUnpack word => Sys2Proof.Machine.execBwUnpack word s

end Sys2Proof.Machine
end

