-- ==== Sys2Proof/Machine/Step.lean ====
section
/-! DEFINITION. One step of the machine: the host's next event (spec 10_state.md R45, 30_encoding.md R98,
70_reset_and_hazards.md R230, R231). -/

namespace Sys2Proof.Machine

/-- What the block does with one command word: its rule, or `ILLEGAL_CMD` (R98, R103). -/
def runWord (w : CmdWord) (s : State) : Host.Outcome State Fault Refusal :=
  match decode w with
  | .ok i => exec i s
  | .error _ => illegalCommand s

/-- One step: the block waits while the host presents nothing (R231, log entry 3); a reset resets; a
command runs to completion. The host's index moves past the event (R45). -/
def step (s : State) : Host.Outcome State Fault Refusal :=
  match s.pending with
  | none => .next s
  | some .reset => .next s.applyReset.tick
  | some (.command w) =>
    match runWord w s with
    | .next t => .next t.tick
    | .fault f => .fault f
    | .refused r => .refused r

/-- The state with this command word as the host's next event. -/
def State.withFetchWord (s : State) (nbits w : Nat) : State :=
  { s with
    program := placeEvent (.command (BitVec.ofNat 80 (w % 2 ^ nbits))) s.index s.program }

end Sys2Proof.Machine
end

