-- ==== Sys2Proof/Safety.lean ====
section
/-! DEFINITION. What counts as a legal state and a safe run, and the words the statements use: the
invariants of the spec (10_state.md R27, R38), what a response is, runs of several commands, and the bit
stream that a packer has taken in and an unpacker has still to give. -/

namespace Sys2Proof.Machine

open Config

/-! ### Invariants -/

/-- The packer between two commands: what R27 and R48 say of one state. The position is below `W`
(R27 (a)), no bit at or above it is set (R27 (b)), nothing emitted means that all bits written are in the
accumulator (a part of R27 (c) and (d)), a closed packer is at position 0 (R27; with (b), `PK.cur` is 0 too),
and an idle one is as reset left it (R48). What (c) and (d) say of the words pushed since `PK_OPEN`
speaks of the history and is not here: the statements about `State.holdsBits` have it, for a stream not flushed yet. -/
abbrev Packer.Inv (p : Packer) : Prop :=
  p.pos < W ∧ p.cur.toNat < 2 ^ p.pos ∧ p.pos ≤ p.total.toNat ∧
  (p.emitted = false → p.total.toNat = p.pos) ∧
  (p.state = .closed → p.pos = 0) ∧
  (p.state = .idle → p = Packer.reset)

/-- The word `k` places before the read cursor of `WIN`, if that many were popped. -/
def State.poppedWord (s : State) (k : Nat) : Option Word :=
  if k ≤ s.winRd then s.win[s.winRd - k]? else none

/-- The sized unpacker before its final word (R38 (a), (b), (e); R34, R35): current word and lookahead are
the last two words popped, and a lookahead that is the source's last word is no marker-only word. -/
abbrev State.ReadingInv (s : State) : Prop :=
  s.up.pos ≤ W ∧ s.up.valid = 0 ∧ s.up.srcDone = s.winAtEnd ∧
  s.poppedWord 1 = some s.up.next ∧ s.poppedWord 2 = some s.up.cur ∧
  (s.up.srcDone = true → decodeMarker s.up.next < payloadBits)

/-- The sized unpacker on its final word (R38 (c), (d), (f); R33, R34): no read has passed the valid bits,
the source is at its end, and the count is 0 for an empty input, else the marker in the word itself, else
the one of a marker-only word after it. -/
abbrev State.FinalInv (s : State) : Prop :=
  s.up.pos ≤ s.up.valid ∧ s.up.srcDone = true ∧ s.winAtEnd = true ∧
  ((s.up.valid = 0 ∧ s.up.cur = 0 ∧ s.up.next = 0) ∨
   (s.poppedWord 1 = some s.up.next ∧ s.up.cur = s.up.next ∧ s.up.valid = decodeMarker s.up.cur) ∨
   (s.poppedWord 1 = some s.up.next ∧ s.poppedWord 2 = some s.up.cur ∧
    s.up.valid = decodeMarker s.up.next ∧ payloadBits ≤ s.up.valid))

/-- The unsized unpacker (R38, last sentence; R31, R34, R35): no final word, no lookahead, and the current
word is the last one popped unless it is used up. -/
abbrev State.UnsizedInv (s : State) : Prop :=
  s.up.pos ≤ W ∧ s.up.final = false ∧ s.up.srcDone = false ∧ s.up.valid = 0 ∧ s.up.next = 0 ∧
  (s.up.pos < W → s.poppedWord 1 = some s.up.cur)

/-- The unpacker between two commands (R38, R48). -/
abbrev State.UnpackerInv (s : State) : Prop :=
  (s.up.state = .idle → s.up = Unpacker.reset) ∧
  (s.up.state = .opened → s.up.mode = .sized → s.up.final = false → s.ReadingInv) ∧
  (s.up.state = .opened → s.up.mode = .sized → s.up.final = true → s.FinalInv) ∧
  (s.up.state = .opened → s.up.mode = .unsized → s.UnsizedInv)

/-- Both read cursors are within their sources (R40, R48). -/
abbrev State.StreamsInv (s : State) : Prop := s.winRd ≤ s.win.length ∧ s.binRd ≤ s.bin.length

/-- `FCODE` is 0 exactly while `FAULT` is 0, and otherwise one of the eleven codes (R43, R201). -/
abbrev State.FaultInv (s : State) : Prop :=
  if s.fault then 1 ≤ s.fcode.toNat ∧ s.fcode.toNat ≤ 0x0B else s.fcode = 0

/-- How many of these host events are commands. -/
def commandCount (es : List HostEvent) : Nat :=
  es.countP fun e => match e with
    | .command _ => true
    | .reset => false

/-- The host's side: the index is within the list (R45), and there is one response for each command so far
(R98). It is about the model's own fields: that a response delivered is kept in `State` is log entry 7, and
that it stays, and the index moves on, when a reset comes is log entry 4, the model's choice. -/
abbrev State.HostInv (s : State) : Prop :=
  s.index ≤ s.program.length ∧ s.responses.length = commandCount (s.program.take s.index)

/-- The legal states: what the spec says of the block's state between two commands, as far as one state
shows it, and `HostInv`, which is about the model's own fields (log entries 2, 4, 7). -/
abbrev State.Inv (s : State) : Prop :=
  s.pk.Inv ∧ s.UnpackerInv ∧ s.StreamsInv ∧ s.FaultInv ∧ s.HostInv

/-! ### Vocabulary of the statements -/

/-- A response word with this status byte and data, written out (R104). -/
def response (status : Byte) (data : Word) : RspWord := data ++ status

/-- The state after one more response. -/
def State.answered (s : State) (status : Byte) (data : Word) : State :=
  { s with responses := s.responses ++ [response status data] }

/-- The state after a fault with this code, as R204 has it. -/
def State.faulted (s : State) (code : Byte) : State :=
  { s with
    fault := true, fcode := code, responses := s.responses ++ [response (0x80 + code) 0] }

/-- The opcodes of R101. -/
def opcodes : List Nat :=
  [0x10, 0x11, 0x12, 0x13, 0x14, 0x15, 0x16, 0x20, 0x21, 0x22, 0x23, 0x24, 0x25, 0x30, 0x31, 0x40, 0x41]

/-- Several commands in a row, stopping at the first that has no next state. -/
def execAll : List Instr → State → Host.Outcome State Fault Refusal
  | [], s => .next s
  | i :: is, s =>
    match exec i s with
    | .next t => execAll is t
    | .fault f => .fault f
    | .refused r => .refused r

/-- The two states agree on everything but the packer, `WOUT` and the responses. -/
def SameButPacker (s t : State) : Prop :=
  t = { s with pk := t.pk, wout := t.wout, responses := t.responses }

/-- The two states agree on everything but the unpacker, `WIN.rd` and the responses. -/
def SameButUnpacker (s t : State) : Prop :=
  t = { s with up := t.up, winRd := t.winRd, responses := t.responses }

/-- Both units and the sinks of the two states are equal: all a run leaves but its responses (R129 "the
same effect on all state and on `WOUT`"). -/
def SameButResponses (s t : State) : Prop := t = { s with responses := t.responses }

/-! ### The bit stream -/

/-- The payload bits of a word list read in sized mode (R93; R162 and R171 for words no packer made): the
last word carries the marker, for itself or, at `PAYLOAD_BITS` or more, for the word before it. -/
def sizedBits : List Word → List Bool
  | [] => []
  | [w] => fieldBits w (decodeMarker w)
  | [w, m] =>
    if payloadBits ≤ decodeMarker m then fieldBits w (decodeMarker m)
    else fieldBits w W ++ fieldBits m (decodeMarker m)
  | w :: x :: y :: rest => fieldBits w W ++ sizedBits (x :: y :: rest)

/-- The bits of a word list read in unsized mode: all of them (R95). -/
def unsizedBits (ws : List Word) : List Bool := ws.flatMap fun w => fieldBits w W

/-- The bits an open unpacker has still to give. -/
def State.bitsLeft (s : State) : List Bool :=
  match s.up.mode, s.up.final with
  | .sized, true => (fieldBits s.up.cur s.up.valid).drop s.up.pos
  | .sized, false => (sizedBits (s.up.cur :: s.up.next :: s.win.drop s.winRd)).drop s.up.pos
  | .unsized, _ => (fieldBits s.up.cur W).drop s.up.pos ++ unsizedBits (s.win.drop s.winRd)

/-- An open packer has taken in exactly these bits since its open, when `WOUT` held `base`, and no flush
has emitted (R27, R64): the full words are in `WOUT`, the rest is in the accumulator. -/
def State.holdsBits (s : State) (base : List Word) (bits : List Bool) : Prop :=
  s.pk.state = .opened ∧ s.wout = base ++ fullWords bits ∧
  s.pk.cur = wordOfBits (tailBits bits) ∧ s.pk.pos = bits.length % W ∧
  s.pk.total.toNat = bits.length ∧ (s.pk.emitted = true ↔ W ≤ bits.length)

/-- A field to write: its value and its width. -/
abbrev Field := Word × Byte

/-- Every width is legal. -/
def legalFields (fs : List Field) : Prop := ∀ f ∈ fs, legalCount f.2 = true

/-- The bits of a sequence of fields, in stream order (R63, R64). -/
def bitsOfFields (fs : List Field) : List Bool := fs.flatMap fun f => fieldBits f.1 f.2.toNat

/-- Write these fields. -/
def writeFields (fs : List Field) : List Instr := fs.map fun f => .pkWfld f.1 f.2

/-- Test for the end and read, for each field, then test for the end once more. -/
def readBack (fs : List Field) : List Instr :=
  (fs.flatMap fun f => [.upEof, .upRfld f.2]) ++ [.upEof]

/-- The responses to `readBack` when every field comes back and the end is reported by `atEnd`. -/
def readBackResponses (fs : List Field) (atEnd : Word) : List RspWord :=
  (fs.flatMap fun f =>
    [response 0 0, response 0 (BitVec.ofNat 64 (f.1.toNat % 2 ^ f.2.toNat))]) ++
  [response 0 atEnd]

end Sys2Proof.Machine
end

