-- ==== Sys2Proof/Certificates/Slice0/Obligations.lean ====
section
/-! DEFINITION. The statements about the machine, each from a numbered rule of spec/. States and
responses are written out, so that a statement does not repeat the definition it is about. -/

open Sys2Proof Sys2Proof.Machine Sys2Proof.Config

/-! ### Reset, the command port, decoding -/

/-- R48, R230: every element has its reset value. -/
def Obligations.ResetLeavesEveryElementAtItsValue : Prop :=
  State.reset.pk.cur = 0 ∧ State.reset.pk.pos = 0 ∧ State.reset.pk.total = 0 ∧
  State.reset.pk.emitted = false ∧ State.reset.pk.finEn = true ∧ State.reset.pk.state = .idle ∧
  State.reset.up.cur = 0 ∧ State.reset.up.next = 0 ∧ State.reset.up.pos = 0 ∧
  State.reset.up.final = false ∧ State.reset.up.valid = 0 ∧ State.reset.up.srcDone = false ∧
  State.reset.up.mode = .sized ∧ State.reset.up.state = .idle ∧
  State.reset.fault = false ∧ State.reset.fcode = 0 ∧ State.reset.wout = [] ∧
  State.reset.bout = [] ∧ State.reset.winRd = 0 ∧ State.reset.binRd = 0

/-- R230, R221: whatever the state, faulted or not, a reset puts every element of R48 at its reset value
and answers nothing. What it leaves of the inputs and of the host's side is the model's choice (log
entry 4). -/
def Obligations.AssertedResetRestoresTheBlock : Prop :=
  ∀ s : State, s.program[s.index]? = some .reset →
    step s = .next
      { pk := { cur := 0, pos := 0, total := 0, emitted := false, finEn := true, state := .idle }
        up := { cur := 0, next := 0, pos := 0, final := false, valid := 0, srcDone := false,
                mode := .sized, state := .idle }
        fault := false, fcode := 0, wout := [], win := s.win, winRd := 0, bout := [], bin := s.bin
        binRd := 0, program := s.program, index := s.index + 1, responses := s.responses }

/-- R231: with no command presented the block waits. That the wait is a step that changes nothing is the
model's choice (log entry 3). -/
def Obligations.IdleBlockWaits : Prop :=
  ∀ s : State, s.program[s.index]? = none → step s = .next s

/-- R98, R45: when the word the host presents decodes to a command, the step is that command, whatever it
answers, and where it has a next state the host's index moves by one. -/
def Obligations.StepRunsTheDecodedCommand : Prop :=
  ∀ (s : State) (w : CmdWord) (i : Instr),
    s.program[s.index]? = some (.command w) → decode w = .ok i →
    step s = match exec i s with
      | .next t => .next { t with index := t.index + 1 }
      | .fault f => .fault f
      | .refused r => .refused r

/-- R206: a command word whose opcode is none of the seventeen raises `ILLEGAL_CMD`, code 0x01. -/
def Obligations.UnknownOpcodeFaults : Prop :=
  ∀ (s : State) (w : CmdWord), s.fault = false →
    s.program[s.index]? = some (.command w) → w.toNat % 256 ∉ opcodes →
    step s = .next { s.faulted 0x01 with index := s.index + 1 }

/-- R100 to R102: command words of 95_test_vectors.md, one or more of each unit, decode to the commands
they stand for. -/
def Obligations.WordsOfTheSpecDecode : Prop :=
  decode 0x0000000000000000_01_10#80 = .ok (.pkOpen true) ∧
  decode 0x00000000000000AB_08_12#80 = .ok (.pkWfld 0xAB 8) ∧
  decode 0x0000000000000000_3A_22#80 = .ok (.upRfld 58) ∧
  decode 0x7E00000000000000_00_31#80 = .ok (.mkDec 0x7E00000000000000) ∧
  decode 0x0102030405060708_00_41#80 = .ok (.bwUnpack 0x0102030405060708) ∧
  decode 0x0000000000000000_00_17#80 = .error (.unknownOpcode 0x17)

/-- R100 to R103: decoding an encoded command gives it back for every command and every operand; a word
decodes exactly if its opcode is in the map; and re-encoding a decoded word gives it back with the
ignored bits cleared. -/
def Obligations.DecodeAndEncodeAgree : Prop :=
  (∀ i : Instr, decode (encode i) = .ok i) ∧
  (∀ w : CmdWord, (∃ i, decode w = .ok i) ↔ w.toNat % 256 ∈ opcodes) ∧
  (∀ (w : CmdWord) (i : Instr), decode w = .ok i → encode i = w &&& i.usedBits)

/-- R103 (b): two words that agree on the bits the command uses decode alike. -/
def Obligations.IgnoredBitsHaveNoEffect : Prop :=
  ∀ (w w' : CmdWord) (i : Instr), decode w = .ok i → w &&& i.usedBits = w' &&& i.usedBits →
    decode w' = .ok i

/-! ### The packer -/

/-- R121: the open from `IDLE` or `CLOSED` sets all six packer elements, touches no stream and answers
`OK`. -/
def Obligations.PkOpenStartsAnEmptyStream : Prop :=
  ∀ (s : State) (nofin : Bool), s.fault = false → s.pk.state ≠ .opened →
    exec (.pkOpen nofin) s = .next { s with
      pk := { cur := 0, pos := 0, total := 0, emitted := false, finEn := !nofin, state := .opened }
      responses := s.responses ++ [response 0 0] }

/-- R122 (with R27 (a), (b) as premises): the bit goes to position `pos`; at position 63 it completes the
word, which is pushed. Nothing but the packer's elements, `WOUT` and the response changes. -/
def Obligations.PkWbitAppendsOneBit : Prop :=
  ∀ (s : State) (b : Bool), s.fault = false → s.pk.state = .opened →
    s.pk.pos < 64 → s.pk.cur.toNat < 2 ^ s.pk.pos → s.pk.total.toNat + 1 ≤ 2 ^ 64 - 1 →
    let word := BitVec.ofNat 64 (s.pk.cur.toNat + b.toNat * 2 ^ s.pk.pos)
    (s.pk.pos + 1 < 64 →
      exec (.pkWbit b) s = .next { s with
        pk := { s.pk with
          cur := word, pos := s.pk.pos + 1, total := BitVec.ofNat 64 (s.pk.total.toNat + 1) }
        responses := s.responses ++ [response 0 0] }) ∧
    (s.pk.pos + 1 = 64 →
      exec (.pkWbit b) s = .next { s with
        pk := { s.pk with
          cur := 0, pos := 0, emitted := true, total := BitVec.ofNat 64 (s.pk.total.toNat + 1) }
        wout := s.wout ++ [word]
        responses := s.responses ++ [response 0 0] })

/-- R123 (with R27 (a), (b) as premises), in arithmetic: the low `count` bits of the value are added at
weight `2^pos`; what reaches 64 bits is pushed as one word and the rest is the new accumulator. Nothing
but the packer's elements, `WOUT` and the response changes. -/
def Obligations.PkWfldAppendsTheField : Prop :=
  ∀ (s : State) (value : Word) (count : Byte), s.fault = false → s.pk.state = .opened →
    1 ≤ count.toNat → count.toNat ≤ 64 →
    s.pk.pos < 64 → s.pk.cur.toNat < 2 ^ s.pk.pos → s.pk.total.toNat + count.toNat ≤ 2 ^ 64 - 1 →
    let all := s.pk.cur.toNat + value.toNat % 2 ^ count.toNat * 2 ^ s.pk.pos
    (s.pk.pos + count.toNat < 64 →
      exec (.pkWfld value count) s = .next { s with
        pk := { s.pk with
          cur := BitVec.ofNat 64 all, pos := s.pk.pos + count.toNat
          total := BitVec.ofNat 64 (s.pk.total.toNat + count.toNat) }
        responses := s.responses ++ [response 0 0] }) ∧
    (64 ≤ s.pk.pos + count.toNat →
      exec (.pkWfld value count) s = .next { s with
        pk := { s.pk with
          cur := BitVec.ofNat 64 (all / 2 ^ 64), pos := s.pk.pos + count.toNat - 64, emitted := true
          total := BitVec.ofNat 64 (s.pk.total.toNat + count.toNat) }
        wout := s.wout ++ [BitVec.ofNat 64 (all % 2 ^ 64)]
        responses := s.responses ++ [response 0 0] })

/-- R124: a flush pushes the partial word as it is, or does nothing at position 0. -/
def Obligations.PkFlushPushesThePartialWord : Prop :=
  ∀ s : State, s.fault = false → s.pk.state = .opened →
    (s.pk.pos = 0 → exec .pkFlush s = .next { s with responses := s.responses ++ [response 0 0] }) ∧
    (0 < s.pk.pos → exec .pkFlush s = .next { s with
      pk := { s.pk with cur := 0, pos := 0, emitted := true }
      wout := s.wout ++ [s.pk.cur]
      responses := s.responses ++ [response 0 0] })

/-- R126, the five cases of its table (with R27 (b) as premise): the words a finalizing close pushes, in
arithmetic, and the state it leaves. -/
def Obligations.PkCloseWritesTheMarker : Prop :=
  ∀ s : State, s.fault = false → s.pk.state = .opened → s.pk.finEn = true →
    s.pk.pos < 64 → s.pk.cur.toNat < 2 ^ s.pk.pos →
    let closedWith (emitted : Bool) (words : List Word) : State := { s with
      pk := { s.pk with cur := 0, pos := 0, emitted := emitted, state := .closed }
      wout := s.wout ++ words
      responses := s.responses ++ [response 0 0] }
    (s.pk.emitted = false → s.pk.pos = 0 → exec .pkClose s = .next (closedWith false [])) ∧
    (1 ≤ s.pk.pos → s.pk.pos ≤ 57 →
      exec .pkClose s = .next
        (closedWith true [BitVec.ofNat 64 (s.pk.cur.toNat + (s.pk.pos - 1) * 2 ^ 57)])) ∧
    (58 ≤ s.pk.pos →
      exec .pkClose s = .next
        (closedWith true [s.pk.cur, BitVec.ofNat 64 ((s.pk.pos - 1) * 2 ^ 57)])) ∧
    (s.pk.emitted = true → s.pk.pos = 0 →
      exec .pkClose s = .next (closedWith true [0x7E00000000000000]))

/-- R126 with finalization disabled: the close pushes the partial word, if there is one, and no
marker (R27 (a), (b) as premises). -/
def Obligations.PkCloseWithoutMarker : Prop :=
  ∀ s : State, s.fault = false → s.pk.state = .opened → s.pk.finEn = false →
    s.pk.pos < 64 → s.pk.cur.toNat < 2 ^ s.pk.pos →
    (s.pk.pos = 0 → exec .pkClose s = .next { s with
      pk := { s.pk with cur := 0, state := .closed }
      responses := s.responses ++ [response 0 0] }) ∧
    (0 < s.pk.pos → exec .pkClose s = .next { s with
      pk := { s.pk with cur := 0, pos := 0, emitted := true, state := .closed }
      wout := s.wout ++ [s.pk.cur]
      responses := s.responses ++ [response 0 0] })

/-- R127, R128: the packer's queries answer the counter and the position, in `OPEN` and in `CLOSED`, and
change nothing. -/
def Obligations.PackerQueriesAnswer : Prop :=
  ∀ s : State, s.fault = false → s.pk.state ≠ .idle →
    exec .pkNbits s = .next (s.answered 0 s.pk.total) ∧
    exec .pkPos s = .next (s.answered 0 (BitVec.ofNat 64 s.pk.pos))

/-- R207, R208: a write, flush or close of a packer that is not open, and a query of an idle one, raise
`PK_NOT_OPEN`, code 0x02, whatever the operands; opening an open packer raises `PK_ALREADY_OPEN`, code
0x03. -/
def Obligations.PackerLifeCycleFaults : Prop :=
  ∀ (s : State) (b : Bool) (value : Word) (count : Byte), s.fault = false →
    (s.pk.state ≠ .opened →
      exec (.pkWbit b) s = .next (s.faulted 0x02) ∧
      exec (.pkWfld value count) s = .next (s.faulted 0x02) ∧
      exec .pkFlush s = .next (s.faulted 0x02) ∧
      exec .pkClose s = .next (s.faulted 0x02)) ∧
    (s.pk.state = .idle →
      exec .pkNbits s = .next (s.faulted 0x02) ∧
      exec .pkPos s = .next (s.faulted 0x02)) ∧
    (s.pk.state = .opened → exec (.pkOpen b) s = .next (s.faulted 0x03))

/-- R209, R213, R217, R218: a count of 0 or of more than 64 raises `PK_BAD_COUNT`, code 0x04, on an open
packer; `UP_BAD_COUNT`, code 0x07, on an open unpacker, also at the end of its stream; `MK_BAD_N`, code
0x0B, always. -/
def Obligations.BadCountsFault : Prop :=
  ∀ (s : State) (value : Word) (count : Byte), s.fault = false →
    count.toNat = 0 ∨ 64 < count.toNat →
    (s.pk.state = .opened → exec (.pkWfld value count) s = .next (s.faulted 0x04)) ∧
    (s.up.state = .opened → exec (.upRfld count) s = .next (s.faulted 0x07)) ∧
    exec (.mkEnc count) s = .next (s.faulted 0x0B)

/-- R211: a write that would take the counter past `2^64 - 1` raises `PK_CNT_OVERFLOW`, code 0x05. -/
def Obligations.CounterOverflowFaults : Prop :=
  ∀ (s : State) (b : Bool) (value : Word) (count : Byte), s.fault = false → s.pk.state = .opened →
    (s.pk.total.toNat = 2 ^ 64 - 1 → exec (.pkWbit b) s = .next (s.faulted 0x05)) ∧
    (1 ≤ count.toNat → count.toNat ≤ 64 → 2 ^ 64 - 1 < s.pk.total.toNat + count.toNat →
      exec (.pkWfld value count) s = .next (s.faulted 0x05))

/-- R129 (a): a field write has the effect, on all state and on `WOUT`, of writing its bits one at a
time, least significant first. -/
def Obligations.FieldWriteIsItsBitWrites : Prop :=
  ∀ (s : State) (value : Word) (count : Byte), s.fault = false → s.pk.state = .opened → s.pk.Inv →
    1 ≤ count.toNat → count.toNat ≤ 64 → s.pk.total.toNat + count.toNat ≤ 2 ^ 64 - 1 →
    ∃ t u, exec (.pkWfld value count) s = .next t ∧
      execAll ((List.range count.toNat).map fun k => .pkWbit (value.getLsbD k)) s = .next u ∧
      SameButResponses t u

/-- R129 (b): a field write has the effect of writing its low part and then its high part. -/
def Obligations.FieldWriteSplits : Prop :=
  ∀ (s : State) (value : Word) (a b c : Byte), s.fault = false → s.pk.state = .opened → s.pk.Inv →
    1 ≤ a.toNat → 1 ≤ b.toNat → a.toNat + b.toNat = c.toNat → c.toNat ≤ 64 →
    s.pk.total.toNat + c.toNat ≤ 2 ^ 64 - 1 →
    ∃ t u, exec (.pkWfld value c) s = .next t ∧
      execAll [.pkWfld (BitVec.ofNat 64 (value.toNat % 2 ^ a.toNat)) a,
        .pkWfld (value >>> a.toNat) b] s = .next u ∧
      SameButResponses t u

/-- R129 (d): a write or a flush pushes at most one word, a close at most two, and no other command
pushes any. -/
def Obligations.WordsPushedByOneCommand : Prop :=
  ∀ (i : Instr) (s t : State), exec i s = .next t →
    ∃ pushed, t.wout = s.wout ++ pushed ∧
      match i with
      | .pkWbit _ | .pkWfld _ _ | .pkFlush => pushed.length ≤ 1
      | .pkClose => pushed.length ≤ 2
      | _ => pushed = []

/-- R63, R64, R122, R123, R129 (c): a packer that holds a bit stream holds, after a write, the stream with
the written bits at its end, least significant first. -/
def Obligations.WritesExtendTheBitStream : Prop :=
  ∀ (s : State) (base : List Word) (bits : List Bool), s.fault = false → s.holdsBits base bits →
    (∀ b : Bool, bits.length + 1 ≤ 2 ^ 64 - 1 →
      ∃ t, exec (.pkWbit b) s = .next t ∧ t.holdsBits base (bits ++ [b]) ∧ SameButPacker s t) ∧
    (∀ (value : Word) (count : Byte), legalCount count = true →
      bits.length + count.toNat ≤ 2 ^ 64 - 1 →
      ∃ t, exec (.pkWfld value count) s = .next t ∧
        t.holdsBits base (bits ++ (List.range count.toNat).map value.getLsbD) ∧
        SameButPacker s t)

/-- R94, R95, R126: closing a packer that holds a bit stream leaves in `WOUT` exactly the words of the
finalized stream of those bits, or of the unfinalized one if finalization is disabled; the counter keeps
the number of bits. -/
def Obligations.CloseCompletesTheStream : Prop :=
  ∀ (s : State) (base : List Word) (bits : List Bool), s.fault = false → s.holdsBits base bits →
    ∃ t, exec .pkClose s = .next t ∧ SameButPacker s t ∧
      t.wout = base ++ (if s.pk.finEn then finalizedWords bits else unfinalizedWords bits) ∧
      t.pk.state = .closed ∧ t.pk.cur = 0 ∧ t.pk.pos = 0 ∧ t.pk.total.toNat = bits.length

/-- R124, R74: flushing a packer that holds a bit stream leaves every bit written so far in `WOUT`, the
last word padded with zeros, without a marker; the counter is not changed. -/
def Obligations.FlushDeliversEveryBit : Prop :=
  ∀ (s : State) (base : List Word) (bits : List Bool), s.fault = false → s.holdsBits base bits →
    ∃ t, exec .pkFlush s = .next t ∧ SameButPacker s t ∧
      t.wout = base ++ unfinalizedWords bits ∧
      t.pk.state = .opened ∧ t.pk.cur = 0 ∧ t.pk.pos = 0 ∧ t.pk.total = s.pk.total

/-! ### The wire format -/

/-- R64: bit `t` of a stream is bit `t mod 64` of word `t / 64`, for the words that are full. -/
def Obligations.FullWordsHoldTheBitsInOrder : Prop :=
  ∀ (bits : List Bool) (t : Nat), t < 64 * (bits.length / 64) →
    ((fullWords bits)[t / 64]?.map fun w => w.getLsbD (t % 64)) = bits[t]?

/-- R94, R95: how many words a finalized and an unfinalized stream of `T` bits have. -/
def Obligations.StreamLengths : Prop :=
  ∀ bits : List Bool,
    (finalizedWords bits).length =
      (if bits.length = 0 then 0
       else if bits.length % 64 < 58 then bits.length / 64 + 1 else bits.length / 64 + 2) ∧
    (unfinalizedWords bits).length = (bits.length + 63) / 64

/-- R93, R116: the words of a finalized stream determine its payload: reading them in sized mode gives
back exactly the bits, for every number of bits. -/
def Obligations.SizedReadingInvertsFinalizing : Prop :=
  ∀ bits : List Bool, sizedBits (finalizedWords bits) = bits

/-- R67: stream position `p` of a word is bit `p mod 8` of byte `7 - p / 8` of its byte form. -/
def Obligations.MixedWidthView : Prop :=
  ∀ (w : Word) (p : Nat), p < 64 →
    (wordBytes w)[7 - p / 8]?.map (fun b => b.getLsbD (p % 8)) = some (w.getLsbD p)

/-! ### The unpacker -/

/-- R161: the open, in either mode, sets all eight unpacker elements, moves `WIN.rd` by the number of
words it pops, and touches nothing else. -/
def Obligations.UpOpenLoadsTheUnpacker : Prop :=
  ∀ s : State, s.fault = false →
    let openedAs (u : Unpacker) (pops : Nat) : State :=
      { s with up := u, winRd := s.winRd + pops, responses := s.responses ++ [response 0 0] }
    exec (.upOpen true) s = .next (openedAs
      { cur := 0, next := 0, pos := 64, final := false, valid := 0, srcDone := false,
        mode := .unsized, state := .opened } 0) ∧
    (s.win.drop s.winRd = [] → exec (.upOpen false) s = .next (openedAs
      { cur := 0, next := 0, pos := 0, final := true, valid := 0, srcDone := true,
        mode := .sized, state := .opened } 0)) ∧
    (∀ w, s.win.drop s.winRd = [w] → exec (.upOpen false) s = .next (openedAs
      { cur := w, next := w, pos := 0, final := true, valid := decodeMarker w, srcDone := true,
        mode := .sized, state := .opened } 1)) ∧
    (∀ w m, s.win.drop s.winRd = [w, m] → exec (.upOpen false) s = .next (openedAs
      { cur := w, next := m, pos := 0, srcDone := true, mode := .sized, state := .opened
        final := decide (58 ≤ decodeMarker m)
        valid := if 58 ≤ decodeMarker m then decodeMarker m else 0 } 2)) ∧
    (∀ w m x rest, s.win.drop s.winRd = w :: m :: x :: rest →
      exec (.upOpen false) s = .next (openedAs
        { cur := w, next := m, pos := 0, final := false, valid := 0, srcDone := false,
          mode := .sized, state := .opened } 2))

/-- R163: a bit read inside the current word, not past the valid bits, returns bit `pos` and moves the
position by one; nothing else changes. -/
def Obligations.UpRbitReadsInsideTheWord : Prop :=
  ∀ s : State, s.fault = false → s.up.state = .opened → s.up.pos < 64 →
    (s.up.mode = .sized → s.up.final = true → s.up.pos < s.up.valid) →
    exec .upRbit s = .next { s with
      up := { s.up with pos := s.up.pos + 1 }
      responses := s.responses ++
        [response 0 (BitVec.ofNat 64 (s.up.cur.toNat / 2 ^ s.up.pos % 2))] }

/-- R162, R163: a bit read at the end of a word first advances. In sized mode, before the final word: the
lookahead becomes the current word, and the end is found in it, or in a marker-only word after it, or
not yet. In unsized mode the next word is popped. -/
def Obligations.UpRbitAdvancesAtTheWordEnd : Prop :=
  ∀ s : State, s.fault = false → s.up.state = .opened → s.up.pos = 64 →
    let readAs (u : Unpacker) (pops : Nat) : State := { s with
      up := { u with pos := 1 }
      winRd := s.winRd + pops
      responses := s.responses ++ [response 0 (BitVec.ofNat 64 (u.cur.toNat % 2))] }
    (s.up.mode = .sized → s.up.final = false → s.up.srcDone = true →
      exec .upRbit s = .next (readAs
        { s.up with cur := s.up.next, valid := decodeMarker s.up.next, final := true } 0)) ∧
    (∀ m, s.up.mode = .sized → s.up.final = false → s.up.srcDone = false →
      s.win.drop s.winRd = [m] → 58 ≤ decodeMarker m →
      exec .upRbit s = .next (readAs
        { s.up with cur := s.up.next, next := m, srcDone := true,
                    valid := decodeMarker m, final := true } 1)) ∧
    (∀ m, s.up.mode = .sized → s.up.final = false → s.up.srcDone = false →
      s.win.drop s.winRd = [m] → decodeMarker m < 58 →
      exec .upRbit s = .next (readAs
        { s.up with cur := s.up.next, next := m, srcDone := true } 1)) ∧
    (∀ m x rest, s.up.mode = .sized → s.up.final = false → s.up.srcDone = false →
      s.win.drop s.winRd = m :: x :: rest →
      exec .upRbit s = .next (readAs { s.up with cur := s.up.next, next := m } 1)) ∧
    (∀ m rest, s.up.mode = .unsized → s.win.drop s.winRd = m :: rest →
      exec .upRbit s = .next (readAs { s.up with cur := m } 1))

/-- R164 (corner cases (b), (d), (f)): a field that lies inside the current word and does not pass the
valid bits is returned, and the position moves by its width; nothing else changes. -/
def Obligations.UpRfldReadsInsideTheWord : Prop :=
  ∀ (s : State) (count : Byte), s.fault = false → s.up.state = .opened →
    1 ≤ count.toNat → s.up.pos < 64 → s.up.pos + count.toNat ≤ 64 →
    (s.up.mode = .sized → s.up.final = true → s.up.pos + count.toNat ≤ s.up.valid) →
    exec (.upRfld count) s = .next { s with
      up := { s.up with pos := s.up.pos + count.toNat }
      responses := s.responses ++
        [response 0 (BitVec.ofNat 64 (s.up.cur.toNat / 2 ^ s.up.pos % 2 ^ count.toNat))] }

/-- R164, straddling field, in the two modes whose advance needs no peek: the high bits of the current
word are the low bits of the result, and the low bits of the next word are its high bits. -/
def Obligations.UpRfldStraddlesTwoWords : Prop :=
  ∀ (s : State) (count : Byte), s.fault = false → s.up.state = .opened →
    count.toNat ≤ 64 → s.up.pos < 64 → 64 < s.up.pos + count.toNat →
    let rem := s.up.pos + count.toNat - 64
    let data (w : Word) : Word := BitVec.ofNat 64
      (s.up.cur.toNat / 2 ^ s.up.pos + w.toNat % 2 ^ rem * 2 ^ (64 - s.up.pos))
    (s.up.mode = .sized → s.up.final = false → s.up.srcDone = true →
      rem ≤ decodeMarker s.up.next →
      exec (.upRfld count) s = .next { s with
        up := { s.up with
          cur := s.up.next, pos := rem, valid := decodeMarker s.up.next, final := true }
        responses := s.responses ++ [response 0 (data s.up.next)] }) ∧
    (∀ w rest, s.up.mode = .unsized → s.win.drop s.winRd = w :: rest →
      exec (.upRfld count) s = .next { s with
        up := { s.up with cur := w, pos := rem }
        winRd := s.winRd + 1
        responses := s.responses ++ [response 0 (data w)] })

/-- R166 to R169: the unpacker's queries answer `good`, `eof` and the unreduced position, never advance
and change nothing. -/
def Obligations.UnpackerQueriesAnswer : Prop :=
  ∀ s : State, s.fault = false → s.up.state = .opened →
    exec .upGood s = .next (s.answered 0
      (if s.up.final = false ∨ s.up.pos < s.up.valid then 1 else 0)) ∧
    exec .upEof s = .next (s.answered 0
      (if s.up.final = true ∧ s.up.valid ≤ s.up.pos then 1 else 0)) ∧
    exec .upPos s = .next (s.answered 0 (BitVec.ofNat 64 s.up.pos))

/-- R212: every unpacker command but the open raises `UP_NOT_OPEN`, code 0x06, in `IDLE`, whatever its
operand. -/
def Obligations.UnpackerNotOpenFaults : Prop :=
  ∀ (s : State) (count : Byte), s.fault = false → s.up.state = .idle →
    exec .upRbit s = .next (s.faulted 0x06) ∧
    exec (.upRfld count) s = .next (s.faulted 0x06) ∧
    exec .upGood s = .next (s.faulted 0x06) ∧
    exec .upEof s = .next (s.faulted 0x06) ∧
    exec .upPos s = .next (s.faulted 0x06)

/-- R214: a read in sized mode at the end of the stream raises `UP_READ_AT_EOF`, code 0x08. -/
def Obligations.ReadAtTheEndFaults : Prop :=
  ∀ (s : State) (count : Byte), s.fault = false → s.up.state = .opened →
    s.up.mode = .sized → s.up.final = true → s.up.valid ≤ s.up.pos →
    exec .upRbit s = .next (s.faulted 0x08) ∧
    (1 ≤ count.toNat → count.toNat ≤ 64 → exec (.upRfld count) s = .next (s.faulted 0x08))

/-- R215, R164: in a legal state, a sized field read of more bits than the stream has left, but not at
its end, raises `UP_TRUNCATED`, code 0x09, and an advance it tried is undone. -/
def Obligations.TruncatedFieldReadFaults : Prop :=
  ∀ (s : State) (count : Byte), s.Inv → s.fault = false → s.up.state = .opened →
    s.up.mode = .sized → legalCount count = true →
    0 < s.bitsLeft.length → s.bitsLeft.length < count.toNat →
    exec (.upRfld count) s = .next (s.faulted 0x09)

/-- R216: an unsized read that needs a word of an exhausted source raises `UP_SRC_UNDERRUN`, code
0x0A. -/
def Obligations.UnsizedUnderrunFaults : Prop :=
  ∀ (s : State) (count : Byte), s.fault = false → s.up.state = .opened → s.up.mode = .unsized →
    s.win.length ≤ s.winRd →
    (64 ≤ s.up.pos → exec .upRbit s = .next (s.faulted 0x0A)) ∧
    (1 ≤ count.toNat → count.toNat ≤ 64 → 64 < s.up.pos + count.toNat →
      exec (.upRfld count) s = .next (s.faulted 0x0A))

/-- R161, R162, R93: opening an unpacker gives it the payload bits of the words that `WIN` has left. -/
def Obligations.UpOpenOffersThePayload : Prop :=
  ∀ s : State, s.Inv → s.fault = false →
    (∃ t, exec (.upOpen false) s = .next t ∧ t.bitsLeft = sizedBits (s.win.drop s.winRd) ∧
      SameButUnpacker s t) ∧
    (∃ t, exec (.upOpen true) s = .next t ∧ t.bitsLeft = unsizedBits (s.win.drop s.winRd) ∧
      SameButUnpacker s t)

/-- R162 to R164, R170 (c): in every legal state and in either mode, a read of bits the stream still has
completes, returns exactly the next bits, the first of them least significant, and leaves the rest. -/
def Obligations.ReadsConsumeTheBitStream : Prop :=
  ∀ s : State, s.Inv → s.fault = false → s.up.state = .opened →
    (∀ b rest, s.bitsLeft = b :: rest →
      ∃ t, exec .upRbit s = .next t ∧ t.bitsLeft = rest ∧ SameButUnpacker s t ∧
        t.responses = s.responses ++ [response 0 (if b then 1 else 0)]) ∧
    (∀ count : Byte, legalCount count = true → count.toNat ≤ s.bitsLeft.length →
      ∃ t, exec (.upRfld count) s = .next t ∧ t.bitsLeft = s.bitsLeft.drop count.toNat ∧
        SameButUnpacker s t ∧
        t.responses = s.responses ++
          [response 0 (BitVec.ofNat 64 (natOfBits (s.bitsLeft.take count.toNat)))])

/-- R168, R38 (f): in a legal state, `UP_EOF` answers 1 exactly when a sized stream has no bit left, and 0
always in unsized mode. -/
def Obligations.EofMeansNoBitsLeft : Prop :=
  ∀ s : State, s.Inv → s.fault = false → s.up.state = .opened →
    exec .upEof s = .next (s.answered 0
      (if s.up.mode = .sized ∧ s.bitsLeft = [] then 1 else 0))

/-- R170 (a): a field read that does not fault has the effect of reading its bits one at a time, and its
result has bit `k` equal to the `k`-th of them. -/
def Obligations.FieldReadIsItsBitReads : Prop :=
  ∀ (s t : State) (count : Byte), s.Inv → s.fault = false → s.up.state = .opened →
    exec (.upRfld count) s = .next t → t.fault = false →
    ∃ (u : State) (bits : List Bool), bits.length = count.toNat ∧
      execAll (List.replicate count.toNat .upRbit) s = .next u ∧ SameButResponses t u ∧
      u.responses = s.responses ++ bits.map (fun b => response 0 (if b then 1 else 0)) ∧
      t.responses = s.responses ++ [response 0 (BitVec.ofNat 64 (natOfBits bits))]

/-! ### The marker -/

/-- R113, R111: `MK_ENC n` answers `(n - 1) << 57` for `n` in `1..64` and changes nothing. -/
def Obligations.MkEncAnswersTheMarker : Prop :=
  ∀ (s : State) (n : Byte), s.fault = false → 1 ≤ n.toNat → n.toNat ≤ 64 →
    exec (.mkEnc n) s = .next (s.answered 0 (BitVec.ofNat 64 ((n.toNat - 1) * 2 ^ 57)))

/-- R114, R115 (c): `MK_DEC` answers bits 62..57 plus one, with 64 for the wrapped 0, for every word, and
changes nothing. -/
def Obligations.MkDecAnswersTheCount : Prop :=
  ∀ (s : State) (word : Word), s.fault = false →
    exec (.mkDec word) s = .next (s.answered 0
      (BitVec.ofNat 64 (word.toNat / 2 ^ 57 % 64 + 1)))

/-- R115, laws (a) to (e) of the marker. -/
def Obligations.MarkerLaws : Prop :=
  (∀ n, 1 ≤ n → n ≤ 64 → decodeMarker (encodeMarker n) = n) ∧
  (∀ n, 1 ≤ n → n ≤ 64 → ∀ p : Word, p.toNat < 2 ^ 57 →
    decodeMarker (encodeMarker n ||| p) = n) ∧
  (∀ w : Word, decodeMarker w =
    if (w.toNat / 2 ^ 57 % 2 ^ 6 + 1) % 64 = 0 then 64 else (w.toNat / 2 ^ 57 % 2 ^ 6 + 1) % 64) ∧
  (∀ n m, 1 ≤ n → n ≤ 64 → 1 ≤ m → m ≤ 64 → encodeMarker n = encodeMarker m → n = m) ∧
  (∀ n, 1 ≤ n → n ≤ 64 → (encodeMarker n).toNat < 2 ^ 63) ∧
  decodeMarker 0 = 1

/-! ### The byte/word converter -/

/-- R191: with eight bytes left `BW_PACK` answers the word they make, the first byte most significant, and
takes them; with fewer it answers `EXHAUSTED` with data 0 and takes them all. Nothing else changes. -/
def Obligations.BwPackAssemblesAWord : Prop :=
  ∀ s : State, s.fault = false → s.binRd ≤ s.bin.length →
    (∀ b0 b1 b2 b3 b4 b5 b6 b7 rest,
      s.bin.drop s.binRd = b0 :: b1 :: b2 :: b3 :: b4 :: b5 :: b6 :: b7 :: rest →
      exec .bwPack s = .next { s with
        binRd := s.binRd + 8
        responses := s.responses ++ [response 0 (BitVec.ofNat 64
          (b0.toNat * 256 ^ 7 + b1.toNat * 256 ^ 6 + b2.toNat * 256 ^ 5 + b3.toNat * 256 ^ 4 +
           b4.toNat * 256 ^ 3 + b5.toNat * 256 ^ 2 + b6.toNat * 256 + b7.toNat))] }) ∧
    (s.bin.length - s.binRd < 8 →
      exec .bwPack s = .next { s with
        binRd := s.bin.length
        responses := s.responses ++ [response 1 0] })

/-- R192: `BW_UNPACK` appends the eight bytes of the word to `BOUT`, most significant first; nothing else
changes. -/
def Obligations.BwUnpackAppendsTheBytes : Prop :=
  ∀ (s : State) (word : Word), s.fault = false →
    exec (.bwUnpack word) s = .next { s with
      bout := s.bout ++
        [BitVec.ofNat 8 (word.toNat / 256 ^ 7), BitVec.ofNat 8 (word.toNat / 256 ^ 6),
         BitVec.ofNat 8 (word.toNat / 256 ^ 5), BitVec.ofNat 8 (word.toNat / 256 ^ 4),
         BitVec.ofNat 8 (word.toNat / 256 ^ 3), BitVec.ofNat 8 (word.toNat / 256 ^ 2),
         BitVec.ofNat 8 (word.toNat / 256), BitVec.ofNat 8 word.toNat]
      responses := s.responses ++ [response 0 0] }

/-- R194, laws (a) to (d) of the converter: the two commands and the two functions on sequences are
inverse, but for the last `N mod 8` bytes, which are lost. -/
def Obligations.ConverterInverseLaws : Prop :=
  (∀ (s t u : State) (w : Word), s.fault = false → exec (.bwUnpack w) s = .next t →
    u.fault = false → u.bin.drop u.binRd = t.bout.drop s.bout.length →
    ∃ v, exec .bwPack u = .next v ∧ v.responses = u.responses ++ [response 0 w]) ∧
  (∀ bs : List Byte, bs.length % 8 = 0 → bytesOfWords (wordsOfBytes bs) = bs) ∧
  (∀ ws : List Word, wordsOfBytes (bytesOfWords ws) = ws) ∧
  (∀ bs : List Byte, bytesOfWords (wordsOfBytes bs) = bs.take (bs.length - bs.length % 8))

/-! ### The whole machine -/

/-- R205: while `FAULT` is 1 every command word, legal or not, is refused: nothing changes but that the
response is `REFUSED` with `FCODE`, and the host's index moves on. -/
def Obligations.FaultedBlockRefusesEverything : Prop :=
  ∀ (s : State) (w : CmdWord), s.fault = true → s.program[s.index]? = some (.command w) →
    step s = .next { s with
      index := s.index + 1, responses := s.responses ++ [response 0xFF (s.fcode.setWidth 64)] }

/-- R42, R221: a step that leaves `FAULT` at 0 after it was 1 is a reset. -/
def Obligations.OnlyResetClearsTheFault : Prop :=
  ∀ s t : State, step s = .next t → s.fault = true → t.fault = false →
    s.program[s.index]? = some .reset

/-- R204, R203, R201: a step that sets `FAULT` changes nothing but `FAULT`, `FCODE`, its response and the
host's index, whatever the command word, and the code is one of the eleven. -/
def Obligations.FaultsArePrecise : Prop :=
  ∀ s t : State, s.fault = false → step s = .next t → t.fault = true →
    t = { s.faulted t.fcode with index := s.index + 1 } ∧
    1 ≤ t.fcode.toNat ∧ t.fcode.toNat ≤ 0x0B

/-- R98, R104: every command that completes, faults or is refused gives exactly one response, and its
status is `OK`, `EXHAUSTED` (by `BW_PACK` alone), `0x80` plus the code of a new fault, or `REFUSED`. -/
def Obligations.OneResponsePerCommand : Prop :=
  ∀ (i : Instr) (s t : State), exec i s = .next t →
    ∃ (status : Byte) (data : Word), t.responses = s.responses ++ [response status data] ∧
      (if s.fault then status = 0xFF ∧ data = s.fcode.setWidth 64
       else if t.fault then status = 0x80 + t.fcode ∧ data = 0
       else status = 0x00 ∨ (i = .bwPack ∧ status = 0x01 ∧ data = 0))

/-- R226: a command of one unit changes no state of another unit and no stream of another unit; the marker
commands change none at all; only the fault elements and the response are shared. -/
def Obligations.UnitsAreIndependent : Prop :=
  ∀ (i : Instr) (s t : State), exec i s = .next t →
    t.win = s.win ∧ t.bin = s.bin ∧ t.program = s.program ∧ t.index = s.index ∧
    (match i with
     | .pkOpen _ | .pkWbit _ | .pkWfld _ _ | .pkFlush | .pkClose | .pkNbits | .pkPos =>
       t.up = s.up ∧ t.winRd = s.winRd ∧ t.bout = s.bout ∧ t.binRd = s.binRd
     | .upOpen _ | .upRbit | .upRfld _ | .upGood | .upEof | .upPos =>
       t.pk = s.pk ∧ t.wout = s.wout ∧ t.bout = s.bout ∧ t.binRd = s.binRd
     | .mkEnc _ | .mkDec _ =>
       t.pk = s.pk ∧ t.up = s.up ∧ t.wout = s.wout ∧ t.winRd = s.winRd ∧ t.bout = s.bout ∧
       t.binRd = s.binRd
     | .bwPack =>
       t.pk = s.pk ∧ t.up = s.up ∧ t.wout = s.wout ∧ t.winRd = s.winRd ∧ t.bout = s.bout
     | .bwUnpack _ =>
       t.pk = s.pk ∧ t.up = s.up ∧ t.wout = s.wout ∧ t.winRd = s.winRd ∧ t.binRd = s.binRd)

/-- R60, R71, R76: but for a reset, a step only appends to the sinks and only moves the cursors forward,
and it never changes an input or the host's list. -/
def Obligations.StreamsOnlyMoveForward : Prop :=
  ∀ s t : State, step s = .next t → s.program[s.index]? ≠ some .reset →
    s.wout <+: t.wout ∧ s.bout <+: t.bout ∧ s.winRd ≤ t.winRd ∧ s.binRd ≤ t.binRd ∧
    t.win = s.win ∧ t.bin = s.bin ∧ t.program = s.program

/-- R27 (a), (b), R38, R40, R43, R48: the reset state is legal, and so is a run's starting point with any
inputs and any host's list. That the inputs, the host's list and the responses are empty at `State.reset`
is the model's choice (log entries 2, 5 and 7). -/
def Obligations.LegalAtReset : Prop :=
  State.reset.Inv ∧
  ∀ (win : List Word) (bin : List Byte) (program : List HostEvent), (State.boot win bin program).Inv

/-- Every step keeps `State.Inv`: R27 (a), (b) and the part of (c), (d) that one state shows for the
packer (the rest speaks of the history: for a stream not flushed yet it is in `WritesExtendTheBitStream`
and `CloseCompletesTheStream`), R38 for the unpacker, R40 for the stream cursors, R43 for the fault
elements. Its clause about the host's side (the index within the list, one response for each command so far)
follows R45 and R98 and rests on the model's choices: responses are kept in `State` (log entry 7), a reset is an event of the host's list that moves the
index on and leaves the responses (log entries 2 and 4, the latter unsafe), and a step with nothing pending
changes nothing (log entry 3). -/
def Obligations.EveryStepKeepsTheInvariants : Prop :=
  ∀ s t : State, s.Inv → step s = .next t → t.Inv

/-- R38 (b), R96, R103 (c): from a legal state a step always has a next state: no stream content and no
command word stops the machine. That waiting with nothing pending is a step is the model's reading (log
entry 3), and the one stop that is ruled out is the model's own (log entry 6). -/
def Obligations.LegalStatesNeverStop : Prop :=
  ∀ s : State, s.Inv → ∃ t, step s = .next t

/-- R170 (b): the round trip. Fields written to a newly opened packer and closed come back, from an
unpacker given the words pushed, with the same widths in the same order, none faulting; the end is
reported after the last field and not before. -/
def Obligations.FinalizedRoundTrip : Prop :=
  ∀ (fs : List Field) (s : State), legalFields fs → (bitsOfFields fs).length ≤ 2 ^ 64 - 1 →
    s.fault = false → s.pk.state ≠ .opened →
    ∃ t words, execAll (.pkOpen false :: writeFields fs ++ [.pkClose]) s = .next t ∧
      t.wout = s.wout ++ words ∧
      ∀ u : State, u.Inv → u.fault = false → u.win.drop u.winRd = words →
        ∃ v, execAll (.upOpen false :: readBack fs) u = .next v ∧ v.fault = false ∧
          v.responses = u.responses ++ response 0 0 :: readBackResponses fs 1

/-- R170 (d): the round trip without finalization, read in unsized mode; the end is never reported. -/
def Obligations.UnfinalizedRoundTrip : Prop :=
  ∀ (fs : List Field) (s : State), legalFields fs → (bitsOfFields fs).length ≤ 2 ^ 64 - 1 →
    s.fault = false → s.pk.state ≠ .opened →
    ∃ t words, execAll (.pkOpen true :: writeFields fs ++ [.pkClose]) s = .next t ∧
      t.wout = s.wout ++ words ∧
      ∀ u : State, u.Inv → u.fault = false → u.win.drop u.winRd = words →
        ∃ v, execAll (.upOpen true :: readBack fs) u = .next v ∧ v.fault = false ∧
          v.responses = u.responses ++ response 0 0 :: readBackResponses fs 0
end

