-- ==== Sys2Proof/Laws/Bits.lean ====
section
/-! SUPPORT. The bit-level functions in arithmetic: `low`, OR of disjoint parts, the marker, lists of bits
as numbers, words as bytes. -/

namespace Sys2Proof.Machine

open Config

/-! ### Words -/

@[simp] theorem low_toNat (v : Word) (k : Nat) : (low v k).toNat = v.toNat % 2 ^ k := by
  unfold low
  rw [BitVec.toNat_ofNat]
  exact Nat.mod_eq_of_lt (lt_of_le_of_lt (Nat.mod_le _ _) v.isLt)

/-- OR of a number below `2^p` and one shifted by `p` is their sum. -/
theorem nat_or_shift (a v p : Nat) (h : a < 2 ^ p) : a ||| v * 2 ^ p = a + v * 2 ^ p := by
  rw [← Nat.shiftLeft_eq, Nat.or_comm, ← Nat.shiftLeft_add_eq_or_of_lt h, Nat.add_comm]

/-- Placing `v` at position `p` above an accumulator that is below `2^p` adds it there (R122, R123). -/
theorem or_shiftLeft_eq (cur v : Word) (p : Nat) (h : cur.toNat < 2 ^ p) :
    cur ||| v <<< p = BitVec.ofNat 64 (cur.toNat + v.toNat * 2 ^ p) := by
  apply BitVec.eq_of_toNat_eq
  rw [BitVec.toNat_or, BitVec.toNat_shiftLeft, BitVec.toNat_ofNat, Nat.shiftLeft_eq,
    ← nat_or_shift _ _ _ h, Nat.or_mod_two_pow, Nat.mod_eq_of_lt cur.isLt]

/-- `encode(n)` in arithmetic (R111). -/
theorem encodeMarker_eq (n : Nat) : encodeMarker n = BitVec.ofNat 64 ((n - 1) * 2 ^ 57) := by
  simp [encodeMarker, Nat.shiftLeft_eq]

theorem encodeMarker_toNat (n : Nat) (h : n ≤ 64) :
    (encodeMarker n).toNat = (n - 1) * 2 ^ 57 := by
  rw [encodeMarker_eq, BitVec.toNat_ofNat, Nat.mod_eq_of_lt]
  omega

/-- `decode(w)` in arithmetic: the six bits of the marker field plus one (R112, R115 (c)). -/
theorem decodeMarker_eq (w : Word) : decodeMarker w = w.toNat / 2 ^ 57 % 64 + 1 := by
  simp only [decodeMarker, W, mshift, Nat.shiftRight_eq_div_pow]
  split <;> omega

theorem decodeMarker_pos (w : Word) : 1 ≤ decodeMarker w := by
  rw [decodeMarker_eq]; omega

theorem decodeMarker_le (w : Word) : decodeMarker w ≤ 64 := by
  rw [decodeMarker_eq]; omega

/-! ### Lists of bits -/

theorem natOfBits_lt (bs : List Bool) : natOfBits bs < 2 ^ bs.length := by
  induction bs with
  | nil => simp [natOfBits]
  | cons b bs ih =>
    have := b.toNat_le
    simp only [natOfBits, List.length_cons, pow_succ]
    omega

theorem natOfBits_append (a b : List Bool) :
    natOfBits (a ++ b) = natOfBits a + natOfBits b * 2 ^ a.length := by
  induction a with
  | nil => simp [natOfBits]
  | cons x a ih => simp only [List.cons_append, natOfBits, ih, List.length_cons, pow_succ]; ring

theorem natOfBits_take (k : Nat) (bs : List Bool) :
    natOfBits (bs.take k) = natOfBits bs % 2 ^ k := by
  induction k generalizing bs with
  | zero => simp [natOfBits, Nat.mod_one]
  | succ k ih =>
    cases bs with
    | nil => simp [natOfBits]
    | cons b bs =>
      simp only [List.take_succ_cons, natOfBits, ih, pow_succ']
      have h1 := b.toNat_le
      rw [Nat.mod_mul, show (b.toNat + 2 * natOfBits bs) / 2 = natOfBits bs by omega]
      omega

theorem natOfBits_drop (k : Nat) (bs : List Bool) :
    natOfBits (bs.drop k) = natOfBits bs / 2 ^ k := by
  induction k generalizing bs with
  | zero => simp
  | succ k ih =>
    cases bs with
    | nil => simp [natOfBits]
    | cons b bs =>
      have h1 := b.toNat_le
      simp only [List.drop_succ_cons, natOfBits, ih, pow_succ', ← Nat.div_div_eq_div_mul]
      congr 1
      omega

@[simp] theorem fieldBits_length (v : Word) (c : Nat) : (fieldBits v c).length = c := by
  simp [fieldBits]

theorem fieldBits_getElem? (v : Word) (c k : Nat) (h : k < c) :
    (fieldBits v c)[k]? = some (v.getLsbD k) := by
  simp [fieldBits, h]

theorem fieldBits_succ (v : Word) (c : Nat) :
    fieldBits v (c + 1) = fieldBits v c ++ [v.getLsbD c] := by
  simp [fieldBits, List.range_succ]

theorem natOfBits_fieldBits (v : Word) (c : Nat) : natOfBits (fieldBits v c) = v.toNat % 2 ^ c := by
  induction c with
  | zero => simp [fieldBits, natOfBits, Nat.mod_one]
  | succ c ih =>
    rw [fieldBits_succ, natOfBits_append, ih, fieldBits_length]
    simp only [natOfBits, Nat.mul_zero, Nat.add_zero, BitVec.getLsbD]
    rw [Nat.mod_pow_succ, Nat.toNat_testBit]
    ring

/-- Two lists of bits of one length with one number are one list. -/
theorem natOfBits_inj (a b : List Bool) (hl : a.length = b.length)
    (h : natOfBits a = natOfBits b) : a = b := by
  induction a generalizing b with
  | nil => cases b with
    | nil => rfl
    | cons y b => simp at hl
  | cons x a ih =>
    cases b with
    | nil => simp at hl
    | cons y b =>
      simp only [natOfBits] at h
      have hx : x = y := by cases x <;> cases y <;> simp at h ⊢ <;> omega
      subst hx
      rw [ih b (by simpa using hl) (by omega)]

theorem wordOfBits_toNat (bs : List Bool) (h : bs.length ≤ 64) :
    (wordOfBits bs).toNat = natOfBits bs := by
  rw [wordOfBits, BitVec.toNat_ofNat]
  exact Nat.mod_eq_of_lt (lt_of_lt_of_le (natOfBits_lt bs) (Nat.pow_le_pow_right (by omega) h))

/-- The bits of a word made of bits are those bits (R62, R63). -/
theorem fieldBits_of_toNat (w : Word) (bs : List Bool) (c : Nat)
    (hc : c = bs.length) (h : w.toNat % 2 ^ c = natOfBits bs) : fieldBits w c = bs := by
  apply natOfBits_inj
  · simp [hc]
  · rw [natOfBits_fieldBits, h]

theorem fieldBits_wordOfBits (bs : List Bool) (h : bs.length ≤ 64) :
    fieldBits (wordOfBits bs) bs.length = bs :=
  fieldBits_of_toNat _ _ _ rfl (by
    rw [wordOfBits_toNat _ h, Nat.mod_eq_of_lt (natOfBits_lt bs)])

theorem wordOfBits_fieldBits (w : Word) : wordOfBits (fieldBits w 64) = w := by
  apply BitVec.eq_of_toNat_eq
  rw [wordOfBits_toNat _ (by simp), natOfBits_fieldBits, Nat.mod_eq_of_lt w.isLt]

end Sys2Proof.Machine
end

