-- ==== Sys2Proof/Laws/State.lean ====
section
/-! SUPPORT. One lemma for each field of the state under each update, so that no proof unfolds a record
update; then the updates of the shared operations that are updates themselves. -/

namespace Sys2Proof.Machine

variable (s : State)

/-! #### setPk -/

@[simp] theorem State.setPk_pk (p : Packer) : (s.setPk p).pk = p := rfl
@[simp] theorem State.setPk_up (p : Packer) : (s.setPk p).up = s.up := rfl
@[simp] theorem State.setPk_fault (p : Packer) : (s.setPk p).fault = s.fault := rfl
@[simp] theorem State.setPk_fcode (p : Packer) : (s.setPk p).fcode = s.fcode := rfl
@[simp] theorem State.setPk_wout (p : Packer) : (s.setPk p).wout = s.wout := rfl
@[simp] theorem State.setPk_win (p : Packer) : (s.setPk p).win = s.win := rfl
@[simp] theorem State.setPk_winRd (p : Packer) : (s.setPk p).winRd = s.winRd := rfl
@[simp] theorem State.setPk_bout (p : Packer) : (s.setPk p).bout = s.bout := rfl
@[simp] theorem State.setPk_bin (p : Packer) : (s.setPk p).bin = s.bin := rfl
@[simp] theorem State.setPk_binRd (p : Packer) : (s.setPk p).binRd = s.binRd := rfl
@[simp] theorem State.setPk_program (p : Packer) : (s.setPk p).program = s.program := rfl
@[simp] theorem State.setPk_index (p : Packer) : (s.setPk p).index = s.index := rfl
@[simp] theorem State.setPk_responses (p : Packer) : (s.setPk p).responses = s.responses := rfl

/-! #### setUp -/

@[simp] theorem State.setUp_pk (u : Unpacker) : (s.setUp u).pk = s.pk := rfl
@[simp] theorem State.setUp_up (u : Unpacker) : (s.setUp u).up = u := rfl
@[simp] theorem State.setUp_fault (u : Unpacker) : (s.setUp u).fault = s.fault := rfl
@[simp] theorem State.setUp_fcode (u : Unpacker) : (s.setUp u).fcode = s.fcode := rfl
@[simp] theorem State.setUp_wout (u : Unpacker) : (s.setUp u).wout = s.wout := rfl
@[simp] theorem State.setUp_win (u : Unpacker) : (s.setUp u).win = s.win := rfl
@[simp] theorem State.setUp_winRd (u : Unpacker) : (s.setUp u).winRd = s.winRd := rfl
@[simp] theorem State.setUp_bout (u : Unpacker) : (s.setUp u).bout = s.bout := rfl
@[simp] theorem State.setUp_bin (u : Unpacker) : (s.setUp u).bin = s.bin := rfl
@[simp] theorem State.setUp_binRd (u : Unpacker) : (s.setUp u).binRd = s.binRd := rfl
@[simp] theorem State.setUp_program (u : Unpacker) : (s.setUp u).program = s.program := rfl
@[simp] theorem State.setUp_index (u : Unpacker) : (s.setUp u).index = s.index := rfl
@[simp] theorem State.setUp_responses (u : Unpacker) : (s.setUp u).responses = s.responses := rfl

/-! #### wordPush -/

@[simp] theorem State.wordPush_pk (w : Word) : (s.wordPush w).pk = s.pk := rfl
@[simp] theorem State.wordPush_up (w : Word) : (s.wordPush w).up = s.up := rfl
@[simp] theorem State.wordPush_fault (w : Word) : (s.wordPush w).fault = s.fault := rfl
@[simp] theorem State.wordPush_fcode (w : Word) : (s.wordPush w).fcode = s.fcode := rfl
@[simp] theorem State.wordPush_wout (w : Word) : (s.wordPush w).wout = s.wout ++ [w] := rfl
@[simp] theorem State.wordPush_win (w : Word) : (s.wordPush w).win = s.win := rfl
@[simp] theorem State.wordPush_winRd (w : Word) : (s.wordPush w).winRd = s.winRd := rfl
@[simp] theorem State.wordPush_bout (w : Word) : (s.wordPush w).bout = s.bout := rfl
@[simp] theorem State.wordPush_bin (w : Word) : (s.wordPush w).bin = s.bin := rfl
@[simp] theorem State.wordPush_binRd (w : Word) : (s.wordPush w).binRd = s.binRd := rfl
@[simp] theorem State.wordPush_program (w : Word) : (s.wordPush w).program = s.program := rfl
@[simp] theorem State.wordPush_index (w : Word) : (s.wordPush w).index = s.index := rfl
@[simp] theorem State.wordPush_responses (w : Word) : (s.wordPush w).responses = s.responses := rfl

/-! #### bytePush -/

@[simp] theorem State.bytePush_pk (b : Byte) : (s.bytePush b).pk = s.pk := rfl
@[simp] theorem State.bytePush_up (b : Byte) : (s.bytePush b).up = s.up := rfl
@[simp] theorem State.bytePush_fault (b : Byte) : (s.bytePush b).fault = s.fault := rfl
@[simp] theorem State.bytePush_fcode (b : Byte) : (s.bytePush b).fcode = s.fcode := rfl
@[simp] theorem State.bytePush_wout (b : Byte) : (s.bytePush b).wout = s.wout := rfl
@[simp] theorem State.bytePush_win (b : Byte) : (s.bytePush b).win = s.win := rfl
@[simp] theorem State.bytePush_winRd (b : Byte) : (s.bytePush b).winRd = s.winRd := rfl
@[simp] theorem State.bytePush_bout (b : Byte) : (s.bytePush b).bout = s.bout ++ [b] := rfl
@[simp] theorem State.bytePush_bin (b : Byte) : (s.bytePush b).bin = s.bin := rfl
@[simp] theorem State.bytePush_binRd (b : Byte) : (s.bytePush b).binRd = s.binRd := rfl
@[simp] theorem State.bytePush_program (b : Byte) : (s.bytePush b).program = s.program := rfl
@[simp] theorem State.bytePush_index (b : Byte) : (s.bytePush b).index = s.index := rfl
@[simp] theorem State.bytePush_responses (b : Byte) : (s.bytePush b).responses = s.responses := rfl

/-! #### winStep -/

@[simp] theorem State.winStep_pk : (s.winStep).pk = s.pk := rfl
@[simp] theorem State.winStep_up : (s.winStep).up = s.up := rfl
@[simp] theorem State.winStep_fault : (s.winStep).fault = s.fault := rfl
@[simp] theorem State.winStep_fcode : (s.winStep).fcode = s.fcode := rfl
@[simp] theorem State.winStep_wout : (s.winStep).wout = s.wout := rfl
@[simp] theorem State.winStep_win : (s.winStep).win = s.win := rfl
@[simp] theorem State.winStep_winRd : (s.winStep).winRd = s.winRd + 1 := rfl
@[simp] theorem State.winStep_bout : (s.winStep).bout = s.bout := rfl
@[simp] theorem State.winStep_bin : (s.winStep).bin = s.bin := rfl
@[simp] theorem State.winStep_binRd : (s.winStep).binRd = s.binRd := rfl
@[simp] theorem State.winStep_program : (s.winStep).program = s.program := rfl
@[simp] theorem State.winStep_index : (s.winStep).index = s.index := rfl
@[simp] theorem State.winStep_responses : (s.winStep).responses = s.responses := rfl

/-! #### binStep -/

@[simp] theorem State.binStep_pk : (s.binStep).pk = s.pk := rfl
@[simp] theorem State.binStep_up : (s.binStep).up = s.up := rfl
@[simp] theorem State.binStep_fault : (s.binStep).fault = s.fault := rfl
@[simp] theorem State.binStep_fcode : (s.binStep).fcode = s.fcode := rfl
@[simp] theorem State.binStep_wout : (s.binStep).wout = s.wout := rfl
@[simp] theorem State.binStep_win : (s.binStep).win = s.win := rfl
@[simp] theorem State.binStep_winRd : (s.binStep).winRd = s.winRd := rfl
@[simp] theorem State.binStep_bout : (s.binStep).bout = s.bout := rfl
@[simp] theorem State.binStep_bin : (s.binStep).bin = s.bin := rfl
@[simp] theorem State.binStep_binRd : (s.binStep).binRd = s.binRd + 1 := rfl
@[simp] theorem State.binStep_program : (s.binStep).program = s.program := rfl
@[simp] theorem State.binStep_index : (s.binStep).index = s.index := rfl
@[simp] theorem State.binStep_responses : (s.binStep).responses = s.responses := rfl

/-! #### answer -/

@[simp] theorem State.answer_pk (r : RspWord) : (s.answer r).pk = s.pk := rfl
@[simp] theorem State.answer_up (r : RspWord) : (s.answer r).up = s.up := rfl
@[simp] theorem State.answer_fault (r : RspWord) : (s.answer r).fault = s.fault := rfl
@[simp] theorem State.answer_fcode (r : RspWord) : (s.answer r).fcode = s.fcode := rfl
@[simp] theorem State.answer_wout (r : RspWord) : (s.answer r).wout = s.wout := rfl
@[simp] theorem State.answer_win (r : RspWord) : (s.answer r).win = s.win := rfl
@[simp] theorem State.answer_winRd (r : RspWord) : (s.answer r).winRd = s.winRd := rfl
@[simp] theorem State.answer_bout (r : RspWord) : (s.answer r).bout = s.bout := rfl
@[simp] theorem State.answer_bin (r : RspWord) : (s.answer r).bin = s.bin := rfl
@[simp] theorem State.answer_binRd (r : RspWord) : (s.answer r).binRd = s.binRd := rfl
@[simp] theorem State.answer_program (r : RspWord) : (s.answer r).program = s.program := rfl
@[simp] theorem State.answer_index (r : RspWord) : (s.answer r).index = s.index := rfl
@[simp] theorem State.answer_responses (r : RspWord) : (s.answer r).responses = s.responses ++ [r] := rfl

/-! #### setFault -/

@[simp] theorem State.setFault_pk (c : Byte) : (s.setFault c).pk = s.pk := rfl
@[simp] theorem State.setFault_up (c : Byte) : (s.setFault c).up = s.up := rfl
@[simp] theorem State.setFault_fault (c : Byte) : (s.setFault c).fault = true := rfl
@[simp] theorem State.setFault_fcode (c : Byte) : (s.setFault c).fcode = c := rfl
@[simp] theorem State.setFault_wout (c : Byte) : (s.setFault c).wout = s.wout := rfl
@[simp] theorem State.setFault_win (c : Byte) : (s.setFault c).win = s.win := rfl
@[simp] theorem State.setFault_winRd (c : Byte) : (s.setFault c).winRd = s.winRd := rfl
@[simp] theorem State.setFault_bout (c : Byte) : (s.setFault c).bout = s.bout := rfl
@[simp] theorem State.setFault_bin (c : Byte) : (s.setFault c).bin = s.bin := rfl
@[simp] theorem State.setFault_binRd (c : Byte) : (s.setFault c).binRd = s.binRd := rfl
@[simp] theorem State.setFault_program (c : Byte) : (s.setFault c).program = s.program := rfl
@[simp] theorem State.setFault_index (c : Byte) : (s.setFault c).index = s.index := rfl
@[simp] theorem State.setFault_responses (c : Byte) : (s.setFault c).responses = s.responses := rfl

/-! #### tick -/

@[simp] theorem State.tick_pk : (s.tick).pk = s.pk := rfl
@[simp] theorem State.tick_up : (s.tick).up = s.up := rfl
@[simp] theorem State.tick_fault : (s.tick).fault = s.fault := rfl
@[simp] theorem State.tick_fcode : (s.tick).fcode = s.fcode := rfl
@[simp] theorem State.tick_wout : (s.tick).wout = s.wout := rfl
@[simp] theorem State.tick_win : (s.tick).win = s.win := rfl
@[simp] theorem State.tick_winRd : (s.tick).winRd = s.winRd := rfl
@[simp] theorem State.tick_bout : (s.tick).bout = s.bout := rfl
@[simp] theorem State.tick_bin : (s.tick).bin = s.bin := rfl
@[simp] theorem State.tick_binRd : (s.tick).binRd = s.binRd := rfl
@[simp] theorem State.tick_program : (s.tick).program = s.program := rfl
@[simp] theorem State.tick_index : (s.tick).index = s.index + 1 := rfl
@[simp] theorem State.tick_responses : (s.tick).responses = s.responses := rfl

/-! #### respond -/

@[simp] theorem State.respond_pk (st : Status) (d : Word) : (s.respond st d).pk = s.pk := rfl
@[simp] theorem State.respond_up (st : Status) (d : Word) : (s.respond st d).up = s.up := rfl
@[simp] theorem State.respond_fault (st : Status) (d : Word) : (s.respond st d).fault = s.fault := rfl
@[simp] theorem State.respond_fcode (st : Status) (d : Word) : (s.respond st d).fcode = s.fcode := rfl
@[simp] theorem State.respond_wout (st : Status) (d : Word) : (s.respond st d).wout = s.wout := rfl
@[simp] theorem State.respond_win (st : Status) (d : Word) : (s.respond st d).win = s.win := rfl
@[simp] theorem State.respond_winRd (st : Status) (d : Word) : (s.respond st d).winRd = s.winRd := rfl
@[simp] theorem State.respond_bout (st : Status) (d : Word) : (s.respond st d).bout = s.bout := rfl
@[simp] theorem State.respond_bin (st : Status) (d : Word) : (s.respond st d).bin = s.bin := rfl
@[simp] theorem State.respond_binRd (st : Status) (d : Word) : (s.respond st d).binRd = s.binRd := rfl
@[simp] theorem State.respond_program (st : Status) (d : Word) : (s.respond st d).program = s.program := rfl
@[simp] theorem State.respond_index (st : Status) (d : Word) : (s.respond st d).index = s.index := rfl
@[simp] theorem State.respond_responses (st : Status) (d : Word) : (s.respond st d).responses = s.responses ++ [rspWord st d] := rfl

/-! #### applyReset -/

@[simp] theorem State.applyReset_pk : (s.applyReset).pk = Packer.reset := rfl
@[simp] theorem State.applyReset_up : (s.applyReset).up = Unpacker.reset := rfl
@[simp] theorem State.applyReset_fault : (s.applyReset).fault = false := rfl
@[simp] theorem State.applyReset_fcode : (s.applyReset).fcode = 0 := rfl
@[simp] theorem State.applyReset_wout : (s.applyReset).wout = [] := rfl
@[simp] theorem State.applyReset_win : (s.applyReset).win = s.win := rfl
@[simp] theorem State.applyReset_winRd : (s.applyReset).winRd = 0 := rfl
@[simp] theorem State.applyReset_bout : (s.applyReset).bout = [] := rfl
@[simp] theorem State.applyReset_bin : (s.applyReset).bin = s.bin := rfl
@[simp] theorem State.applyReset_binRd : (s.applyReset).binRd = 0 := rfl
@[simp] theorem State.applyReset_program : (s.applyReset).program = s.program := rfl
@[simp] theorem State.applyReset_index : (s.applyReset).index = s.index := rfl
@[simp] theorem State.applyReset_responses : (s.applyReset).responses = s.responses := rfl

@[simp] theorem emit_pk : (emit s).pk = { s.pk with emitted := true, cur := 0, pos := 0 } := rfl
@[simp] theorem emit_up : (emit s).up = s.up := rfl
@[simp] theorem emit_fault : (emit s).fault = s.fault := rfl
@[simp] theorem emit_fcode : (emit s).fcode = s.fcode := rfl
@[simp] theorem emit_wout : (emit s).wout = s.wout ++ [s.pk.cur] := rfl
@[simp] theorem emit_win : (emit s).win = s.win := rfl
@[simp] theorem emit_winRd : (emit s).winRd = s.winRd := rfl
@[simp] theorem emit_bout : (emit s).bout = s.bout := rfl
@[simp] theorem emit_bin : (emit s).bin = s.bin := rfl
@[simp] theorem emit_binRd : (emit s).binRd = s.binRd := rfl
@[simp] theorem emit_program : (emit s).program = s.program := rfl
@[simp] theorem emit_index : (emit s).index = s.index := rfl
@[simp] theorem emit_responses : (emit s).responses = s.responses := rfl

@[simp] theorem takeFault_pk (c : FaultCode) : (takeFault c s).pk = s.pk := rfl
@[simp] theorem takeFault_up (c : FaultCode) : (takeFault c s).up = s.up := rfl
@[simp] theorem takeFault_fault (c : FaultCode) : (takeFault c s).fault = true := rfl
@[simp] theorem takeFault_fcode (c : FaultCode) : (takeFault c s).fcode = c.code := rfl
@[simp] theorem takeFault_wout (c : FaultCode) : (takeFault c s).wout = s.wout := rfl
@[simp] theorem takeFault_win (c : FaultCode) : (takeFault c s).win = s.win := rfl
@[simp] theorem takeFault_winRd (c : FaultCode) : (takeFault c s).winRd = s.winRd := rfl
@[simp] theorem takeFault_bout (c : FaultCode) : (takeFault c s).bout = s.bout := rfl
@[simp] theorem takeFault_bin (c : FaultCode) : (takeFault c s).bin = s.bin := rfl
@[simp] theorem takeFault_binRd (c : FaultCode) : (takeFault c s).binRd = s.binRd := rfl
@[simp] theorem takeFault_program (c : FaultCode) : (takeFault c s).program = s.program := rfl
@[simp] theorem takeFault_index (c : FaultCode) : (takeFault c s).index = s.index := rfl
@[simp] theorem takeFault_responses (c : FaultCode) : (takeFault c s).responses = s.responses ++ [rspWord (.fault c) 0] := rfl

@[simp] theorem refuse_pk : (refuse s).pk = s.pk := rfl
@[simp] theorem refuse_up : (refuse s).up = s.up := rfl
@[simp] theorem refuse_fault : (refuse s).fault = s.fault := rfl
@[simp] theorem refuse_fcode : (refuse s).fcode = s.fcode := rfl
@[simp] theorem refuse_wout : (refuse s).wout = s.wout := rfl
@[simp] theorem refuse_win : (refuse s).win = s.win := rfl
@[simp] theorem refuse_winRd : (refuse s).winRd = s.winRd := rfl
@[simp] theorem refuse_bout : (refuse s).bout = s.bout := rfl
@[simp] theorem refuse_bin : (refuse s).bin = s.bin := rfl
@[simp] theorem refuse_binRd : (refuse s).binRd = s.binRd := rfl
@[simp] theorem refuse_program : (refuse s).program = s.program := rfl
@[simp] theorem refuse_index : (refuse s).index = s.index := rfl
@[simp] theorem refuse_responses : (refuse s).responses = s.responses ++ [rspWord .refused (s.fcode.setWidth 64)] := rfl

end Sys2Proof.Machine
end

