-- ==== Sys2Proof/Laws/Ops.lean ====
section
/-! SUPPORT. For each shared operation, once, everything it can do: the packer's operations as explicit
next states in arithmetic, the unpacker's advance and reads as lists of cases, the converter's transfers,
and the outcomes of a command. -/

namespace Sys2Proof.Machine

open Config

/-! ### Commands -/

/-- Everything a command can do: be refused, complete, fault, or stop (R204, R205, R218). -/
theorem command_cases {s : State} {rule : State → Result} {o : Host.Outcome State Fault Refusal}
    (h : command s rule = o) :
    (s.fault = true ∧ o = .next (refuse s)) ∨
    (s.fault = false ∧ ∃ t r, rule s = .ok (t, r) ∧ o = .next (t.respond r.status r.data)) ∨
    (s.fault = false ∧ ∃ c, rule s = .error (.raise c) ∧ o = .next (takeFault c s)) ∨
    (s.fault = false ∧ ∃ f, rule s = .error (.stuck f) ∧ o = .fault f) := by
  subst h
  by_cases hf : s.fault = true
  · exact .inl ⟨hf, if_pos hf⟩
  · have hc : command s rule = conclude s (rule s) := if_neg hf
    have hf' : s.fault = false := by simpa using hf
    rw [hc]
    match rule s with
    | .ok (t, r) => exact .inr (.inl ⟨hf', t, r, rfl, rfl⟩)
    | .error (.raise c) => exact .inr (.inr (.inl ⟨hf', c, rfl, rfl⟩))
    | .error (.stuck f) => exact .inr (.inr (.inr ⟨hf', f, rfl, rfl⟩))

theorem command_refused {s : State} {rule : State → Result} (hf : s.fault = true) :
    command s rule = .next (refuse s) := by simp [command, hf]

theorem command_ok {s t : State} {rule : State → Result} {r : Reply} (hf : s.fault = false)
    (h : rule s = .ok (t, r)) : command s rule = .next (t.respond r.status r.data) := by
  simp [command, hf, h, conclude]

theorem command_reply {s t : State} {rule : State → Result} {d : Word} (hf : s.fault = false)
    (h : rule s = reply t d) : command s rule = .next (t.respond .ok d) :=
  command_ok (r := { status := .ok, data := d }) hf h

theorem command_raise {s : State} {rule : State → Result} {c : FaultCode} (hf : s.fault = false)
    (h : rule s = raise c) : command s rule = .next (takeFault c s) := by
  simp [command, hf, h, conclude, raise]

/-- `reply` answers exactly its state with its data and status `OK`. -/
theorem reply_eq_ok {s t : State} {d : Word} {r : Reply} (h : reply s d = .ok (t, r)) :
    t = s ∧ r = { status := .ok, data := d } := by
  simp only [reply, Except.ok.injEq, Prod.mk.injEq] at h
  exact ⟨h.1.symm, h.2.symm⟩

theorem reply_ne_error {s : State} {d : Word} {e : Halt} : reply s d ≠ .error e := by
  simp [reply]

theorem raise_ne_ok {c : FaultCode} {p : State × Reply} : raise c ≠ .ok p := by simp [raise]

theorem raise_eq_error {c : FaultCode} {e : Halt} (h : raise c = .error e) : e = .raise c := by
  simpa [raise] using h.symm

/-- The codes are those of R201, in `1 .. 0x0B`. -/
theorem faultCode_range (c : FaultCode) : 1 ≤ c.code.toNat ∧ c.code.toNat ≤ 0x0B := by
  cases c <;> decide

/-! ### Checks -/

/-- The operand check passes exactly on `1 .. W` (R102 (a), (f)). -/
theorem badCount_eq_false {c : Byte} : badCount c = false ↔ 1 ≤ c.toNat ∧ c.toNat ≤ 64 := by
  change (c.toNat == 0 || decide (64 < c.toNat)) = false ↔ _
  rw [Bool.or_eq_false_iff, beq_eq_false_iff_ne, decide_eq_false_iff_not]
  omega

theorem badCount_eq_true {c : Byte} : badCount c = true ↔ c.toNat = 0 ∨ 64 < c.toNat := by
  change (c.toNat == 0 || decide (64 < c.toNat)) = true ↔ _
  rw [Bool.or_eq_true, beq_iff_eq, decide_eq_true_eq]

theorem legalCount_iff {c : Byte} : legalCount c = true ↔ 1 ≤ c.toNat ∧ c.toNat ≤ 64 := by
  simp only [legalCount, W, Bool.and_eq_true, decide_eq_true_eq]

/-- The overflow check passes exactly if the counter can hold the sum (R211). -/
theorem wouldOverflow_eq_false {p : Packer} {n : Nat} :
    p.wouldOverflow n = false ↔ p.total.toNat + n ≤ 2 ^ 64 - 1 := by
  simp only [Packer.wouldOverflow, cntBits, decide_eq_false_iff_not, not_lt]

theorem isOpen_packer {p : Packer} : p.isOpen = true ↔ p.state = .opened := by
  simp [Packer.isOpen]

/-- The check of `UP_READ_AT_EOF` (R163, R164, R166). -/
theorem sizedEof_eq_true {u : Unpacker} :
    u.sizedEof = true ↔ u.mode = .sized ∧ u.final = true ∧ u.valid ≤ u.pos := by
  simp [Unpacker.sizedEof, Unpacker.eof]

/-- The counter after a write that does not overflow (R122, R123). -/
theorem add_total (x : BitVec 64) (n : Nat) :
    x + BitVec.ofNat 64 n = BitVec.ofNat 64 (x.toNat + n) := by
  apply BitVec.eq_of_toNat_eq; simp

/-! ### The packer -/

/-- The write of one bit (R122) from a state with R27 (a), (b). -/
theorem writeBit_eq (b : Bool) (s : State) (hp : s.pk.pos < 64) (hc : s.pk.cur.toNat < 2 ^ s.pk.pos) :
    writeBit b s =
      let word := BitVec.ofNat 64 (s.pk.cur.toNat + b.toNat * 2 ^ s.pk.pos)
      if s.pk.pos + 1 < 64 then
        { s with pk := { s.pk with
            cur := word, pos := s.pk.pos + 1, total := s.pk.total + 1 } }
      else
        { s with
          pk := { s.pk with cur := 0, pos := 0, emitted := true, total := s.pk.total + 1 }
          wout := s.wout ++ [word] } := by
  have hb : (bitOperand b).toNat = b.toNat := by cases b <;> rfl
  have hw := or_shiftLeft_eq s.pk.cur (bitOperand b) s.pk.pos hc
  rw [hb] at hw
  simp only [writeBit, hw, W, State.setPk_pk]
  split
  · rw [if_neg (by omega)]; rfl
  · rw [if_pos (by omega)]; rfl

/-- The arithmetic of a straddling field: what reaches `2^(a+p)` and what stays below. -/
theorem straddle_div_mod (cur v a p : Nat) (h : cur < 2 ^ p) :
    (cur + v * 2 ^ p) % 2 ^ (a + p) = cur + v % 2 ^ a * 2 ^ p ∧
    (cur + v * 2 ^ p) / 2 ^ (a + p) = v / 2 ^ a := by
  have hv := Nat.div_add_mod v (2 ^ a)
  have hm : v % 2 ^ a < 2 ^ a := Nat.mod_lt _ (by positivity)
  have hlt : cur + v % 2 ^ a * 2 ^ p < 2 ^ (a + p) := by
    rw [pow_add]; nlinarith [Nat.two_pow_pos p]
  have he : cur + v * 2 ^ p = (cur + v % 2 ^ a * 2 ^ p) + 2 ^ (a + p) * (v / 2 ^ a) := by
    conv_lhs => rw [← hv]
    ring
  rw [he]
  refine ⟨?_, ?_⟩
  · rw [Nat.add_mul_mod_self_left, Nat.mod_eq_of_lt hlt]
  · rw [Nat.add_mul_div_left _ _ (by positivity), Nat.div_eq_of_lt hlt, Nat.zero_add]

/-- The write of a field (R123) from a state with R27 (a), (b): the low `count` bits of the value are
added at weight `2^pos`; what reaches 64 bits is emitted. -/
theorem writeField_eq (value : Word) (count : Nat) (s : State)
    (hp : s.pk.pos < 64) (hc : s.pk.cur.toNat < 2 ^ s.pk.pos) :
    writeField value count s =
      let all := s.pk.cur.toNat + value.toNat % 2 ^ count * 2 ^ s.pk.pos
      if s.pk.pos + count < 64 then
        { s with pk := { s.pk with
            cur := BitVec.ofNat 64 all, pos := s.pk.pos + count
            total := s.pk.total + BitVec.ofNat 64 count } }
      else
        { s with
          pk := { s.pk with
            cur := BitVec.ofNat 64 (all / 2 ^ 64), pos := s.pk.pos + count - 64, emitted := true
            total := s.pk.total + BitVec.ofNat 64 count }
          wout := s.wout ++ [BitVec.ofNat 64 (all % 2 ^ 64)] } := by
  have hw := or_shiftLeft_eq s.pk.cur (low value count) s.pk.pos hc
  rw [low_toNat] at hw
  simp only [writeField, W]
  obtain hlt | heq | hgt := lt_trichotomy count (64 - s.pk.pos)
  · rw [if_pos hlt, if_pos (by omega), hw]; rfl
  · have hall := straddle_div_mod s.pk.cur.toNat (value.toNat % 2 ^ count) count s.pk.pos hc
    rw [show count + s.pk.pos = 64 by omega, Nat.mod_mod,
      Nat.div_eq_of_lt (Nat.mod_lt _ (Nat.two_pow_pos count))] at hall
    rw [if_neg (by omega), if_pos heq, if_neg (by omega), hw, hall.1, hall.2,
      show s.pk.pos + count - 64 = 0 by omega]
    rfl
  · have hall := straddle_div_mod s.pk.cur.toNat (value.toNat % 2 ^ count) (64 - s.pk.pos) s.pk.pos hc
    rw [show 64 - s.pk.pos + s.pk.pos = 64 by omega] at hall
    have hlo := or_shiftLeft_eq s.pk.cur (low (low value count) (64 - s.pk.pos)) s.pk.pos hc
    rw [low_toNat, low_toNat] at hlo
    have hhi : low value count >>> (64 - s.pk.pos)
        = BitVec.ofNat 64 (value.toNat % 2 ^ count / 2 ^ (64 - s.pk.pos)) := by
      apply BitVec.eq_of_toNat_eq
      have hlt : value.toNat % 2 ^ count / 2 ^ (64 - s.pk.pos) < 2 ^ 64 :=
        lt_of_le_of_lt (Nat.div_le_self _ _) (lt_of_le_of_lt (Nat.mod_le _ _) value.isLt)
      rw [BitVec.toNat_ushiftRight, low_toNat, Nat.shiftRight_eq_div_pow, BitVec.toNat_ofNat,
        Nat.mod_eq_of_lt hlt]
    rw [if_neg (by omega), if_neg (by omega), if_neg (by omega), hlo, hhi, hall.1, hall.2,
      show s.pk.pos + count - 64 = count - (64 - s.pk.pos) by omega]
    rfl

/-- A flush (R124): the partial word goes out, if there is one. -/
theorem flushPartial_eq (s : State) :
    flushPartial s =
      if 0 < s.pk.pos then
        { s with
          pk := { s.pk with cur := 0, pos := 0, emitted := true }, wout := s.wout ++ [s.pk.cur] }
      else s := rfl

/-- OR of the marker into a partial word that has room for it adds it (R126 cases (b), (c)). -/
theorem or_encodeMarker (cur : Word) (i n : Nat) (hi : i ≤ 57) (hc : cur.toNat < 2 ^ i) :
    cur ||| encodeMarker n = BitVec.ofNat 64 (cur.toNat + (n - 1) * 2 ^ 57) := by
  have h57 : cur.toNat < 2 ^ 57 :=
    lt_of_lt_of_le hc (Nat.pow_le_pow_right (by omega) hi)
  rw [encodeMarker_eq, show (n - 1) * 2 ^ 57 = (n - 1) * 2 ^ 57 from rfl]
  apply BitVec.eq_of_toNat_eq
  rw [BitVec.toNat_or, BitVec.toNat_ofNat, BitVec.toNat_ofNat, ← nat_or_shift _ _ _ h57,
    Nat.or_mod_two_pow, Nat.mod_eq_of_lt cur.isLt]

/-- Finalization (R126), the five cases of its table, from a state with R27 (a), (b). -/
theorem finalize_cases (s : State) (hp : s.pk.pos < 64) (hc : s.pk.cur.toNat < 2 ^ s.pk.pos) :
    let done (words : List Word) : State :=
      { s with
        pk := { s.pk with cur := 0, pos := 0, emitted := true }, wout := s.wout ++ words }
    (s.pk.emitted = false ∧ s.pk.pos = 0 ∧ finalize s = s) ∨
    (1 ≤ s.pk.pos ∧ s.pk.pos ≤ 57 ∧
      finalize s = done [BitVec.ofNat 64 (s.pk.cur.toNat + (s.pk.pos - 1) * 2 ^ 57)]) ∨
    (58 ≤ s.pk.pos ∧ finalize s = done [s.pk.cur, encodeMarker s.pk.pos]) ∨
    (s.pk.emitted = true ∧ s.pk.pos = 0 ∧ finalize s = done [encodeMarker 64]) := by
  intro done
  by_cases h0 : s.pk.pos = 0
  · have hz : s.pk.cur = 0 := by
      apply BitVec.eq_of_toNat_eq
      rw [h0] at hc
      simpa using hc
    cases he : s.pk.emitted
    · exact .inl ⟨rfl, h0, by simp [finalize, he, h0]⟩
    · refine .inr (.inr (.inr ⟨rfl, h0, ?_⟩))
      have hm : s.pk.cur ||| encodeMarker 64 = encodeMarker 64 := by rw [hz]; exact BitVec.zero_or
      simp [finalize, he, h0, emit, State.wordPush, State.setPk, hm, done]
  · have hpos : 1 ≤ s.pk.pos := by omega
    have hne : ¬(!s.pk.emitted && s.pk.pos == 0) = true := by simp [h0]
    have hi : 0 < s.pk.pos := hpos
    by_cases h57 : s.pk.pos ≤ 57
    · refine .inr (.inl ⟨hpos, h57, ?_⟩)
      have h58 : ¬58 ≤ s.pk.pos := by omega
      rw [← or_encodeMarker _ _ s.pk.pos h57 hc]
      simp only [finalize, payloadBits]
      rw [if_neg hne, if_pos hi, if_neg h58]
      rfl
    · have h58 : 58 ≤ s.pk.pos := by omega
      refine .inr (.inr (.inl ⟨h58, ?_⟩))
      simp only [finalize, payloadBits]
      rw [if_neg hne, if_pos hi, if_pos h58]
      have hm : 0#64 ||| encodeMarker s.pk.pos = encodeMarker s.pk.pos := BitVec.zero_or
      simp [emit, State.wordPush, State.setPk, hm, done]

/-! ### Sources -/

theorem wordPop_eq_some {s t : State} {w : Word} :
    s.wordPop = some (w, t) ↔ s.win[s.winRd]? = some w ∧ t = s.winStep := by
  unfold State.wordPop
  split
  · rename_i x hx; simp [hx, eq_comm]
  · rename_i hx; simp [hx]

theorem wordPop_eq_none {s : State} : s.wordPop = none ↔ s.winAtEnd = true := by
  unfold State.wordPop State.winAtEnd
  split
  · rename_i x hx
    have := (List.getElem?_eq_some_iff.mp hx).1
    simp; omega
  · rename_i hx; simpa using hx

/-- A source with words left pops its next word (R11). -/
theorem wordPop_of_drop {s : State} {w : Word} {rest : List Word}
    (h : s.win.drop s.winRd = w :: rest) :
    s.wordPop = some (w, s.winStep) ∧ s.winStep.win.drop s.winStep.winRd = rest := by
  have hw : s.win[s.winRd]? = some w := by
    have := congrArg (·[0]?) h
    simpa using this
  refine ⟨wordPop_eq_some.mpr ⟨hw, rfl⟩, ?_⟩
  have := congrArg (List.drop 1) h
  simpa [State.winStep, List.drop_drop] using this

theorem winAtEnd_eq_isEmpty (s : State) : s.winAtEnd = (s.win.drop s.winRd).isEmpty := by
  rw [Bool.eq_iff_iff, State.winAtEnd, decide_eq_true_iff, List.isEmpty_iff, List.drop_eq_nil_iff]

/-! ### The unpacker -/

/-- Everything the sized advance can do (R162 steps 1 to 4). -/
theorem advanceSized_cases (s : State) :
    (s.up.srcDone = true ∧ advanceSized s = .ok { s with
      up := { s.up with
        cur := s.up.next, pos := 0, valid := decodeMarker s.up.next, final := true } }) ∨
    (s.up.srcDone = false ∧ s.win.drop s.winRd = [] ∧
      advanceSized s = .error (.stuck .wordPopPastEnd)) ∨
    (s.up.srcDone = false ∧ ∃ m, s.win.drop s.winRd = [m] ∧ 58 ≤ decodeMarker m ∧
      advanceSized s = .ok { s with
        up := { s.up with
          cur := s.up.next, next := m, pos := 0, srcDone := true, valid := decodeMarker m
          final := true }
        winRd := s.winRd + 1 }) ∨
    (s.up.srcDone = false ∧ ∃ m, s.win.drop s.winRd = [m] ∧ decodeMarker m < 58 ∧
      advanceSized s = .ok { s with
        up := { s.up with cur := s.up.next, next := m, pos := 0, srcDone := true }
        winRd := s.winRd + 1 }) ∨
    (s.up.srcDone = false ∧ ∃ m x rest, s.win.drop s.winRd = m :: x :: rest ∧
      advanceSized s = .ok { s with
        up := { s.up with cur := s.up.next, next := m, pos := 0, srcDone := false }
        winRd := s.winRd + 1 }) := by
  cases hd : s.up.srcDone
  · right
    match hr : s.win.drop s.winRd with
    | [] =>
      left
      have hn : s.wordPop = none := wordPop_eq_none.mpr (by simp [winAtEnd_eq_isEmpty, hr])
      exact ⟨rfl, rfl, by simp [advanceSized, hd, hn]⟩
    | [m] =>
      right
      obtain ⟨hpop, hrest⟩ := wordPop_of_drop hr
      have hend : s.winStep.winAtEnd = true := by rw [winAtEnd_eq_isEmpty, hrest]; rfl
      by_cases h58 : 58 ≤ decodeMarker m
      · left
        refine ⟨rfl, m, rfl, h58, ?_⟩
        simp only [advanceSized, hd, hpop, hend, isExtra, payloadBits, h58]
        rfl
      · right; left
        refine ⟨rfl, m, rfl, by omega, ?_⟩
        simp only [advanceSized, hd, hpop, hend, isExtra, payloadBits, h58]
        rfl
    | m :: x :: rest =>
      right; right; right
      obtain ⟨hpop, hrest⟩ := wordPop_of_drop hr
      have hend : s.winStep.winAtEnd = false := by rw [winAtEnd_eq_isEmpty, hrest]; rfl
      refine ⟨rfl, m, x, rest, rfl, ?_⟩
      simp only [advanceSized, hd, hpop, hend]
      rfl
  · left
    exact ⟨rfl, by simp [advanceSized, hd, State.setUp]⟩

/-- Everything the unsized advance can do (R162 steps 1u, 2u). -/
theorem advanceUnsized_cases (s : State) :
    (s.win.drop s.winRd = [] ∧ advanceUnsized s = .error (.raise .upSrcUnderrun)) ∨
    (∃ m rest, s.win.drop s.winRd = m :: rest ∧ advanceUnsized s = .ok { s with
      up := { s.up with cur := m, pos := 0 }, winRd := s.winRd + 1 }) := by
  match hr : s.win.drop s.winRd with
  | [] =>
    have hn : s.wordPop = none := wordPop_eq_none.mpr (by simp [winAtEnd_eq_isEmpty, hr])
    exact .inl ⟨rfl, by simp [advanceUnsized, hn]⟩
  | m :: rest =>
    obtain ⟨hpop, -⟩ := wordPop_of_drop hr
    exact .inr ⟨m, rest, rfl, by simp [advanceUnsized, hpop, State.setUp, State.winStep]⟩

/-- Everything the sized open can do (R161). -/
theorem openSized_cases (s : State) :
    let opened (u : Unpacker) (pops : Nat) : State :=
      { s with up := u, winRd := s.winRd + pops }
    (s.win.drop s.winRd = [] ∧ openSized s = .ok (opened
      { openedUnpacker .sized 0 with final := true, srcDone := true } 0)) ∨
    (∃ w, s.win.drop s.winRd = [w] ∧ openSized s = .ok (opened
      { openedUnpacker .sized 0 with
        cur := w, next := w, final := true, valid := decodeMarker w, srcDone := true } 1)) ∨
    (∃ w m, s.win.drop s.winRd = [w, m] ∧ 58 ≤ decodeMarker m ∧ openSized s = .ok (opened
      { openedUnpacker .sized 0 with
        cur := w, next := m, final := true, valid := decodeMarker m, srcDone := true } 2)) ∨
    (∃ w m, s.win.drop s.winRd = [w, m] ∧ decodeMarker m < 58 ∧ openSized s = .ok (opened
      { openedUnpacker .sized 0 with cur := w, next := m, srcDone := true } 2)) ∨
    (∃ w m x rest, s.win.drop s.winRd = w :: m :: x :: rest ∧ openSized s = .ok (opened
      { openedUnpacker .sized 0 with cur := w, next := m } 2)) := by
  intro opened
  match hr : s.win.drop s.winRd with
  | [] =>
    have hn : s.wordPop = none := wordPop_eq_none.mpr (by simp [winAtEnd_eq_isEmpty, hr])
    exact .inl ⟨rfl, by simp [openSized, hn, opened, openedUnpacker, State.setUp]⟩
  | w :: tl =>
    right
    obtain ⟨hpop, hrest⟩ := wordPop_of_drop hr
    have hend : s.winStep.winAtEnd = tl.isEmpty := by rw [winAtEnd_eq_isEmpty, hrest]
    have hopen (e : Bool) (he : tl.isEmpty = e) : openSized s = advanceSized (s.winStep.setUp
        { openedUnpacker .sized 0 with next := w, srcDone := e }) := by
      simp [openSized, hpop, hend, he]
    simp only [State.winStep_win, State.winStep_winRd] at hrest
    have key (e : Bool) := advanceSized_cases (s.winStep.setUp
      { openedUnpacker .sized 0 with next := w, srcDone := e })
    simp only [State.setUp_up, State.setUp_win, State.setUp_winRd, State.winStep_win,
      State.winStep_winRd, hrest] at key
    match tl with
    | [] =>
      left
      have key := key true
      simp at key
      exact ⟨w, rfl, by rw [hopen true rfl, key]; rfl⟩
    | [m] =>
      right
      have key := key false
      simp at key
      obtain ⟨h58, he⟩ | ⟨h58, he⟩ := key
      · left; exact ⟨w, m, rfl, h58, by rw [hopen false rfl, he]; rfl⟩
      · right; left; exact ⟨w, m, rfl, h58, by rw [hopen false rfl, he]; rfl⟩
    | m :: x :: rest =>
      right; right; right
      have key := key false
      simp at key
      exact ⟨w, m, x, rest, rfl, by rw [hopen false rfl, key]; rfl⟩

/-! ### The byte/word converter -/

theorem bytePop_of_drop {s : State} {b : Byte} {rest : List Byte}
    (h : s.bin.drop s.binRd = b :: rest) :
    s.bytePop = some (b, s.binStep) ∧ s.binStep.bin.drop s.binStep.binRd = rest := by
  have hb : s.bin[s.binRd]? = some b := by
    have := congrArg (·[0]?) h
    simpa using this
  refine ⟨by simp [State.bytePop, hb], ?_⟩
  have := congrArg (List.drop 1) h
  simpa [State.binStep, List.drop_drop] using this

theorem bytePop_of_nil {s : State} (h : s.bin.drop s.binRd = []) : s.bytePop = none := by
  have hb : s.bin[s.binRd]? = none := by
    simpa [List.drop_eq_nil_iff] using h
  simp [State.bytePop, hb]

/-- The loop of `BW_PACK` (R191): it takes the bytes there are, at most `fuel`, in order. -/
theorem popBytes_eq (fuel : Nat) (acc : Word) (k : Nat) (s : State) :
    popBytes fuel acc k s =
      let taken := (s.bin.drop s.binRd).take fuel
      (taken.foldl shiftInByte acc, k + taken.length, { s with binRd := s.binRd + taken.length }) := by
  induction fuel generalizing acc k s with
  | zero => simp [popBytes]
  | succ fuel ih =>
    match hr : s.bin.drop s.binRd with
    | [] => simp [popBytes, bytePop_of_nil hr]
    | b :: rest =>
      obtain ⟨hpop, hrest⟩ := bytePop_of_drop hr
      have hlen : ∀ n, s.binRd + 1 + n = s.binRd + (n + 1) := by omega
      have hk : ∀ n, k + 1 + n = k + (n + 1) := by omega
      simp only [popBytes, hpop, ih, hrest]
      simp [State.binStep, hlen, hk]

/-- The pushes of `BW_UNPACK` (R192). -/
theorem pushBytes_eq (bs : List Byte) (s : State) :
    pushBytes bs s = { s with bout := s.bout ++ bs } := by
  induction bs generalizing s with
  | nil => simp [pushBytes]
  | cons b bs ih =>
    have : pushBytes (b :: bs) s = pushBytes bs (s.bytePush b) := rfl
    rw [this, ih]
    simp [State.bytePush]

end Sys2Proof.Machine
end

