-- ==== Sys2Proof/Laws/BitStream.lean ====
section
/-! SUPPORT. Bit streams as words (spec 20_memory.md R64; 30_encoding.md R91 to R95): the full words and
the tail of a stream that grows at its end or is taken at its start, and the payload of a word list as it
is read. -/

namespace Sys2Proof.Machine

open Config

/-! ### Full words and tail -/

@[simp] theorem tailBits_length (bits : List Bool) : (tailBits bits).length = bits.length % 64 := by
  simp only [tailBits, W, List.length_drop]
  omega

@[simp] theorem fullWords_length (bits : List Bool) : (fullWords bits).length = bits.length / 64 := by
  simp [fullWords]

theorem tailBits_of_lt {bits : List Bool} (h : bits.length < 64) : tailBits bits = bits := by
  simp [tailBits, Nat.div_eq_of_lt h]

theorem fullWords_of_lt {bits : List Bool} (h : bits.length < 64) : fullWords bits = [] := by
  simp [fullWords, Nat.div_eq_of_lt h]

/-- Bits that do not complete a word go to the tail. -/
theorem append_below (bits f : List Bool) (h : bits.length % 64 + f.length < 64) :
    fullWords (bits ++ f) = fullWords bits ∧ tailBits (bits ++ f) = tailBits bits ++ f := by
  have hq : (bits.length + f.length) / 64 = bits.length / 64 := by omega
  refine ⟨?_, ?_⟩
  · simp only [fullWords, W, List.length_append, hq]
    refine List.map_congr_left fun j hj => ?_
    have hj := List.mem_range.mp hj
    rw [List.drop_append_of_le_length (by omega), List.take_append_of_le_length]
    simp only [List.length_drop]
    omega
  · simp only [tailBits, W, List.length_append, hq]
    rw [List.drop_append_of_le_length (by omega)]

/-- Bits that complete a word, and at most one, make it a full word and leave the rest as the tail. -/
theorem append_across (bits f : List Bool) (h : 64 ≤ bits.length % 64 + f.length)
    (hf : f.length ≤ 64) :
    fullWords (bits ++ f) = fullWords bits ++ [wordOfBits ((tailBits bits ++ f).take 64)] ∧
    tailBits (bits ++ f) = (tailBits bits ++ f).drop 64 := by
  have hq : (bits.length + f.length) / 64 = bits.length / 64 + 1 := by omega
  refine ⟨?_, ?_⟩
  · simp only [fullWords, W, List.length_append, hq, List.range_succ, List.map_append,
      List.map_cons, List.map_nil]
    congr 1
    · refine List.map_congr_left fun j hj => ?_
      have hj := List.mem_range.mp hj
      rw [List.drop_append_of_le_length (by omega), List.take_append_of_le_length]
      simp only [List.length_drop]
      omega
    · rw [List.drop_append_of_le_length (by omega)]
      rfl
  · have ht : tailBits bits ++ f = (bits ++ f).drop (64 * (bits.length / 64)) := by
      rw [List.drop_append_of_le_length (by omega)]
      rfl
    rw [ht, List.drop_drop]
    simp only [tailBits, W, List.length_append, hq]
    congr 1

/-- The first word of a stream that has one. -/
theorem fullWords_cons {bits : List Bool} (h : 64 ≤ bits.length) :
    fullWords bits = wordOfBits (bits.take 64) :: fullWords (bits.drop 64) := by
  have hq : bits.length / 64 = (bits.length - 64) / 64 + 1 := by omega
  simp only [fullWords, W, hq, List.range_succ_eq_map, List.map_cons, List.map_map, Nat.mul_zero,
    List.drop_zero, List.length_drop]
  refine congrArg _ ?_
  refine List.map_congr_left fun j _ => ?_
  simp only [Function.comp_apply, List.drop_drop, Nat.succ_eq_add_one, Nat.mul_succ, Nat.add_comm]

theorem tailBits_drop {bits : List Bool} (h : 64 ≤ bits.length) :
    tailBits bits = tailBits (bits.drop 64) := by
  simp only [tailBits, W, List.length_drop, List.drop_drop]
  congr 1
  omega

theorem wordOfBits_take_toNat (bs : List Bool) :
    wordOfBits (bs.take 64) = BitVec.ofNat 64 (natOfBits bs % 2 ^ 64) := by
  rw [wordOfBits, natOfBits_take]

theorem wordOfBits_drop_toNat (bs : List Bool) :
    wordOfBits (bs.drop 64) = BitVec.ofNat 64 (natOfBits bs / 2 ^ 64) := by
  rw [wordOfBits, natOfBits_drop]

/-- Bit `k` of a word made of bits is the `k`-th of them (R62). -/
theorem wordOfBits_getLsbD (bs : List Bool) (k : Nat) (h : bs.length ≤ 64) (hk : k < bs.length) :
    (wordOfBits bs).getLsbD k = bs[k] := by
  have h1 := fieldBits_wordOfBits bs h
  have h2 := fieldBits_getElem? (wordOfBits bs) bs.length k hk
  rw [h1, List.getElem?_eq_getElem hk] at h2
  exact (Option.some.inj h2).symm

/-! ### A field cut in two -/

/-- The bits of a field are its low bits, then its high bits (R63). -/
theorem fieldBits_add (v : Word) (a b : Nat) :
    fieldBits v (a + b) = fieldBits v a ++ fieldBits (v >>> a) b := by
  simp only [fieldBits, List.range_add, List.map_append, List.map_map]
  congr 1
  refine List.map_congr_left fun k _ => ?_
  simp [BitVec.getLsbD_ushiftRight]

theorem fieldBits_take (v : Word) (c k : Nat) (h : k ≤ c) : (fieldBits v c).take k = fieldBits v k := by
  obtain ⟨b, rfl⟩ := Nat.exists_eq_add_of_le h
  rw [fieldBits_add, List.take_left' (fieldBits_length _ _)]

theorem fieldBits_drop (v : Word) (c k : Nat) (h : k ≤ c) :
    (fieldBits v c).drop k = fieldBits (v >>> k) (c - k) := by
  obtain ⟨b, rfl⟩ := Nat.exists_eq_add_of_le h
  rw [fieldBits_add, List.drop_left' (fieldBits_length _ _), Nat.add_sub_cancel_left]

/-- Only the low bits of a value are in its field. -/
theorem fieldBits_low (v : Word) (c : Nat) : fieldBits (low v c) c = fieldBits v c :=
  fieldBits_of_toNat _ _ _ (by simp) (by rw [natOfBits_fieldBits, low_toNat, Nat.mod_mod])

/-! ### The marker in a word with payload -/

/-- A marker in the free bits above at most 57 payload bits announces its count and leaves the payload
(R92, R115 (b)). -/
theorem decodeMarker_or (w : Word) (r n : Nat) (hr : r ≤ 57) (hw : w.toNat < 2 ^ r) (h1 : 1 ≤ n)
    (hn : n ≤ 64) : decodeMarker (w ||| encodeMarker n) = n := by
  have : w.toNat < 2 ^ 57 := lt_of_lt_of_le hw (Nat.pow_le_pow_right (by omega) hr)
  rw [or_encodeMarker w r n hr hw, decodeMarker_eq, BitVec.toNat_ofNat, Nat.mod_eq_of_lt (by omega)]
  omega

theorem decodeMarker_encodeMarker (n : Nat) (h1 : 1 ≤ n) (hn : n ≤ 64) :
    decodeMarker (encodeMarker n) = n := by
  have h0 : (0#64 ||| encodeMarker n) = encodeMarker n := BitVec.zero_or
  rw [← h0]
  exact decodeMarker_or 0 0 n (by omega) (by simp) h1 hn

theorem fieldBits_or_marker (bs : List Bool) (n : Nat) (hr : bs.length ≤ 57) :
    fieldBits (wordOfBits bs ||| encodeMarker n) bs.length = bs := by
  have hw : (wordOfBits bs).toNat < 2 ^ bs.length := by
    rw [wordOfBits_toNat _ (by omega)]; exact natOfBits_lt bs
  refine fieldBits_of_toNat _ _ _ rfl ?_
  rw [or_encodeMarker _ _ n hr hw, wordOfBits_toNat _ (by omega), BitVec.toNat_ofNat,
    Nat.mod_mod_of_dvd _ (Nat.pow_dvd_pow 2 (by omega)),
    show (n - 1) * 2 ^ 57 = 2 ^ bs.length * ((n - 1) * 2 ^ (57 - bs.length)) by
      rw [Nat.mul_left_comm, ← pow_add]; congr 2; omega,
    Nat.add_mul_mod_self_left, Nat.mod_eq_of_lt (natOfBits_lt bs)]

/-! ### The payload of a word list -/

theorem sizedBits_cons {w : Word} {ws : List Word} (h : 2 ≤ ws.length) :
    sizedBits (w :: ws) = fieldBits w 64 ++ sizedBits ws := by
  match ws with
  | [] => simp at h
  | [_] => simp at h
  | _ :: _ :: _ => rfl

theorem sizedBits_pair_below {w m : Word} (h : decodeMarker m < 58) :
    sizedBits [w, m] = fieldBits w 64 ++ sizedBits [m] := by
  simp only [sizedBits]
  rw [if_neg (by simp only [payloadBits]; omega)]

theorem sizedBits_pair_extra {w m : Word} (h : 58 ≤ decodeMarker m) :
    sizedBits [w, m] = fieldBits w (decodeMarker m) := by
  simp only [sizedBits]
  rw [if_pos h]

theorem unsizedBits_cons (w : Word) (ws : List Word) :
    unsizedBits (w :: ws) = fieldBits w 64 ++ unsizedBits ws := rfl

end Sys2Proof.Machine
end

