-- ==== Sys2Proof/Laws/Encoding.lean ====
section
/-! SUPPORT. The fields of a command word (spec 30_encoding.md R100) under the encoder's concatenation. -/

namespace Sys2Proof

/-- Bit `i` of a command word lies in the field of R100 that covers it. -/
theorem getLsbD_cmdWord (value : Word) (arg op : Byte) (i : Nat) :
    (cmdWord value arg op).getLsbD i =
      if i < 8 then op.getLsbD i else if i < 16 then arg.getLsbD (i - 8) else value.getLsbD (i - 16) := by
  change ((value ++ arg : BitVec (64 + 8)) ++ op).getLsbD i = _
  rw [BitVec.getLsbD_append, BitVec.getLsbD_append]
  by_cases h8 : i < 8
  · simp [h8]
  · by_cases h16 : i < 16
    · simp [h8, h16, show i - 8 < 8 by omega]
    · simp [h8, h16, show ¬i - 8 < 8 by omega, Nat.sub_sub]

theorem opField_cmdWord (value : Word) (arg op : Byte) : opField (cmdWord value arg op) = op := by
  apply BitVec.eq_of_getLsbD_eq
  intro i hi
  rw [opField, BitVec.getLsbD_extractLsb', getLsbD_cmdWord, Nat.zero_add, if_pos hi]
  simp [hi]

theorem argField_cmdWord (value : Word) (arg op : Byte) : argField (cmdWord value arg op) = arg := by
  apply BitVec.eq_of_getLsbD_eq
  intro i hi
  rw [argField, BitVec.getLsbD_extractLsb', getLsbD_cmdWord, if_neg (by omega), if_pos (by omega),
    Nat.add_sub_cancel_left]
  simp [hi]

theorem valueField_cmdWord (value : Word) (arg op : Byte) :
    valueField (cmdWord value arg op) = value := by
  apply BitVec.eq_of_getLsbD_eq
  intro i hi
  rw [valueField, BitVec.getLsbD_extractLsb', getLsbD_cmdWord, if_neg (by omega),
    if_neg (by omega), Nat.add_sub_cancel_left]
  simp [hi]

/-- A command word is its three fields. -/
theorem cmdWord_fields (w : CmdWord) : cmdWord (valueField w) (argField w) (opField w) = w := by
  apply BitVec.eq_of_getLsbD_eq
  intro i hi
  rw [getLsbD_cmdWord, opField, argField, valueField, BitVec.getLsbD_extractLsb',
    BitVec.getLsbD_extractLsb', BitVec.getLsbD_extractLsb']
  split
  · simp [*]
  · split
    · simp [show i - 8 < 8 by omega, show 8 + (i - 8) = i by omega]
    · simp [show i - 16 < 64 by omega, show 16 + (i - 16) = i by omega]

theorem and_cmdWord (v v' : Word) (a a' o o' : Byte) :
    cmdWord v a o &&& cmdWord v' a' o' = cmdWord (v &&& v') (a &&& a') (o &&& o') := by
  apply BitVec.eq_of_getLsbD_eq
  intro i _
  rw [BitVec.getLsbD_and, getLsbD_cmdWord, getLsbD_cmdWord, getLsbD_cmdWord]
  split
  · rw [BitVec.getLsbD_and]
  · split <;> rw [BitVec.getLsbD_and]

/-- The opcode field is the low byte. -/
theorem opField_toNat (w : CmdWord) : (opField w).toNat = w.toNat % 256 := by
  simp [opField, BitVec.extractLsb'_toNat]

end Sys2Proof
end

