-- ==== Sys2Proof/Laws/Frames.lean ====
section
/-! SUPPORT. What each shared operation leaves unchanged, and what it does to the streams: the packer's
operations write the packer and append to `WOUT`; the unpacker's write the unpacker and move `WIN.rd`
forward inside its source; the converter's move `BIN.rd` or append to `BOUT` (spec 20_memory.md R60, R71;
60_exceptions.md R226). -/

namespace Sys2Proof.Machine

open Config

/-- Only the packer and `WOUT` differ, and `WOUT` has grown by at most `n` words. -/
def PackerFrame (n : Nat) (s t : State) : Prop :=
  t = { s with pk := t.pk, wout := t.wout } ∧ ∃ ws, t.wout = s.wout ++ ws ∧ ws.length ≤ n

/-- Only the unpacker and `WIN.rd` differ, and the cursor has moved by at most `n` words that were
there. -/
def UnpackerFrame (n : Nat) (s t : State) : Prop :=
  t = { s with up := t.up, winRd := t.winRd } ∧
  s.winRd ≤ t.winRd ∧ t.winRd ≤ s.winRd + n ∧ (t.winRd = s.winRd ∨ t.winRd ≤ s.win.length)

/-! ### The packer -/

theorem emit_frame (s : State) : PackerFrame 1 s (emit s) :=
  ⟨rfl, [s.pk.cur], rfl, le_refl _⟩

theorem writeBit_frame (b : Bool) (s : State) : PackerFrame 1 s (writeBit b s) := by
  unfold writeBit
  simp only []
  split
  · exact ⟨rfl, _, rfl, le_refl _⟩
  · exact ⟨rfl, [], by simp, by simp⟩

theorem writeField_frame (value : Word) (count : Nat) (s : State) :
    PackerFrame 1 s (writeField value count s) := by
  unfold writeField
  simp only []
  split
  · exact ⟨rfl, [], by simp [addTotal], by simp⟩
  · split
    · exact ⟨rfl, _, rfl, le_refl _⟩
    · exact ⟨rfl, _, rfl, le_refl _⟩

theorem flushPartial_frame (s : State) : PackerFrame 1 s (flushPartial s) := by
  unfold flushPartial
  split
  · exact emit_frame s
  · exact ⟨rfl, [], by simp, by simp⟩

theorem finalize_frame (s : State) : PackerFrame 2 s (finalize s) := by
  unfold finalize
  simp only []
  split
  · exact ⟨rfl, [], by simp, by simp⟩
  · split
    · exact ⟨rfl, [s.pk.cur, _], by simp [emit, State.wordPush, State.setPk]; rfl, le_refl _⟩
    · exact ⟨rfl, [_], rfl, by simp⟩

theorem closePacker_frame (s : State) : PackerFrame 2 s (closePacker s) := by
  unfold closePacker
  simp only []
  split
  · obtain ⟨h, ws, hw, hl⟩ := finalize_frame s
    exact ⟨by rw [h]; rfl, ws, hw, hl⟩
  · obtain ⟨h, ws, hw, hl⟩ := flushPartial_frame s
    exact ⟨by rw [h]; rfl, ws, hw, by omega⟩

/-! ### The unpacker -/

theorem UnpackerFrame.refl (s : State) : UnpackerFrame 0 s s :=
  ⟨rfl, le_refl _, le_refl _, .inl rfl⟩

theorem UnpackerFrame.mono {n m : Nat} {s t : State} (h : UnpackerFrame n s t) (hm : n ≤ m) :
    UnpackerFrame m s t :=
  ⟨h.1, h.2.1, by have := h.2.2.1; omega, h.2.2.2⟩

/-- Writing the unpacker after a frame keeps the frame. -/
theorem UnpackerFrame.setUp {n : Nat} {s t : State} (h : UnpackerFrame n s t) (u : Unpacker) :
    UnpackerFrame n s (t.setUp u) := by
  obtain ⟨h1, h2⟩ := h
  refine ⟨?_, h2⟩
  rw [h1]
  rfl

theorem UnpackerFrame.trans {n m : Nat} {s t u : State} (h : UnpackerFrame n s t)
    (h' : UnpackerFrame m t u) : UnpackerFrame (n + m) s u := by
  obtain ⟨h1, h2, h3, h4⟩ := h
  obtain ⟨k1, k2, k3, k4⟩ := h'
  refine ⟨?_, by omega, by omega, ?_⟩
  · rw [k1, h1]
  · have : t.win = s.win := by rw [h1]
    rw [this] at k4
    omega

theorem drop_length {α : Type} {l : List α} {n : Nat} {rest : List α} (h : l.drop n = rest)
    (hr : rest ≠ []) : n + rest.length = l.length := by
  have := congrArg List.length h
  rw [List.length_drop] at this
  have : 0 < rest.length := List.length_pos_iff.mpr hr
  omega

theorem advanceSized_frame {s t : State} (h : advanceSized s = .ok t) : UnpackerFrame 1 s t := by
  rcases advanceSized_cases s with ⟨-, e⟩ | ⟨-, -, e⟩ | ⟨-, m, hd, -, e⟩ | ⟨-, m, hd, -, e⟩ |
    ⟨-, m, x, rest, hd, e⟩ <;> rw [e] at h <;> cases h
  · exact ⟨rfl, by simp, by simp, .inl rfl⟩
  all_goals
    have := drop_length hd (by simp)
    simp only [List.length_cons] at this
    exact ⟨rfl, by simp, by simp, .inr (by simp only []; omega)⟩

theorem advanceUnsized_frame {s t : State} (h : advanceUnsized s = .ok t) : UnpackerFrame 1 s t := by
  rcases advanceUnsized_cases s with ⟨-, e⟩ | ⟨m, rest, hd, e⟩ <;> rw [e] at h <;> cases h
  have := drop_length hd (by simp)
  simp only [List.length_cons] at this
  exact ⟨rfl, by simp, by simp, .inr (by simp only []; omega)⟩

theorem advance_frame {s t : State} (h : advance s = .ok t) : UnpackerFrame 1 s t := by
  unfold advance at h
  split at h
  · exact advanceSized_frame h
  · exact advanceUnsized_frame h

theorem fieldAdvance_frame {s t : State} (h : fieldAdvance s = .ok t) : UnpackerFrame 1 s t := by
  unfold fieldAdvance at h
  split at h
  · cases h
  · exact advance_frame h

theorem lazyAdvance_frame {s t : State} (h : lazyAdvance s = .ok t) : UnpackerFrame 1 s t := by
  unfold lazyAdvance at h
  split at h
  · exact advance_frame h
  · cases h; exact (UnpackerFrame.refl s).mono (by omega)

theorem fieldLazyAdvance_frame {s t : State} (h : fieldLazyAdvance s = .ok t) :
    UnpackerFrame 1 s t := by
  unfold fieldLazyAdvance at h
  split at h
  · exact fieldAdvance_frame h
  · cases h; exact (UnpackerFrame.refl s).mono (by omega)

theorem openSized_frame {s t : State} (h : openSized s = .ok t) : UnpackerFrame 2 s t := by
  rcases openSized_cases s with ⟨-, e⟩ | ⟨w, hd, e⟩ | ⟨w, m, hd, -, e⟩ | ⟨w, m, hd, -, e⟩ |
    ⟨w, m, x, rest, hd, e⟩ <;> rw [e] at h <;> cases h
  · exact ⟨rfl, by simp, by simp, .inl rfl⟩
  all_goals
    have := drop_length hd (by simp)
    simp only [List.length_cons] at this
    exact ⟨rfl, by simp, by simp, .inr (by simp only []; omega)⟩

theorem finishField_cases {s : State} {d : Word} :
    (s.up.overrun = true ∧ finishField s d = raise .upTruncated) ∨
    (s.up.overrun = false ∧ finishField s d = reply s d) := by
  unfold finishField
  cases h : s.up.overrun
  · exact .inr ⟨rfl, by simp⟩
  · exact .inl ⟨rfl, by simp⟩

theorem finishField_ok {s t : State} {d : Word} {r : Reply} (h : finishField s d = .ok (t, r)) :
    t = s ∧ r = { status := .ok, data := d } ∧ s.up.overrun = false := by
  rcases finishField_cases (s := s) (d := d) with ⟨-, e⟩ | ⟨ho, e⟩ <;> rw [e] at h
  · exact absurd h raise_ne_ok
  · obtain ⟨h1, h2⟩ := reply_eq_ok h
    exact ⟨h1, h2, ho⟩

theorem readBit_frame {s t : State} {r : Reply} (h : readBit s = .ok (t, r)) :
    UnpackerFrame 1 s t ∧ r.status = .ok := by
  unfold readBit at h
  split at h
  · cases h
  · rename_i u hu
    obtain ⟨rfl, rfl⟩ := reply_eq_ok h
    exact ⟨(lazyAdvance_frame hu).setUp _, rfl⟩

theorem extractField_frame {c : Nat} {s t : State} {r : Reply}
    (h : extractField c s = .ok (t, r)) : UnpackerFrame 1 s t ∧ r.status = .ok := by
  unfold extractField at h
  simp only [] at h
  split at h
  · obtain ⟨rfl, rfl, -⟩ := finishField_ok h
    exact ⟨((UnpackerFrame.refl s).mono (by omega)).setUp _, rfl⟩
  · split at h
    · cases h
    · rename_i u hu
      obtain ⟨rfl, rfl, -⟩ := finishField_ok h
      exact ⟨(fieldAdvance_frame hu).setUp _, rfl⟩

theorem readField_frame {c : Nat} {s t : State} {r : Reply} (h : readField c s = .ok (t, r)) :
    UnpackerFrame 2 s t ∧ r.status = .ok := by
  unfold readField at h
  split at h
  · cases h
  · rename_i u hu
    obtain ⟨hf, hr⟩ := extractField_frame h
    exact ⟨(fieldLazyAdvance_frame hu).trans hf, hr⟩

/-! ### Commands -/

/-- If a command's rule keeps a relation to its state, so does the command, up to its response and the
two fault elements. -/
theorem command_next {s t : State} {rule : State → Result} (h : command s rule = .next t) :
    (s.fault = true ∧ t = refuse s) ∨
    (s.fault = false ∧ ∃ u r, rule s = .ok (u, r) ∧ t = u.respond r.status r.data) ∨
    (s.fault = false ∧ ∃ c, rule s = .error (.raise c) ∧ t = takeFault c s) := by
  rcases command_cases h with ⟨hf, e⟩ | ⟨hf, u, r, hr, e⟩ | ⟨hf, c, hr, e⟩ | ⟨hf, f, hr, e⟩
  · exact .inl ⟨hf, by cases e; rfl⟩
  · exact .inr (.inl ⟨hf, u, r, hr, by cases e; rfl⟩)
  · exact .inr (.inr ⟨hf, c, hr, by cases e; rfl⟩)
  · cases e

end Sys2Proof.Machine
end

