-- ==== Sys2Proof/Laws/Exec.lean ====
section
/-! SUPPORT. The one inversion lemma of `exec`: a command that has a next state was refused, faulted, or
completed with the frame of its unit (spec 60_exceptions.md R204, R205, R226). -/

namespace Sys2Proof.Machine

open Config

/-- What a completed command may have changed before its response, and its status (R226, R104). -/
def Completed (i : Instr) (s u : State) (r : Reply) : Prop :=
  match i with
  | .pkOpen _ => PackerFrame 0 s u ∧ r.status = .ok
  | .pkWbit _ | .pkWfld _ _ | .pkFlush => PackerFrame 1 s u ∧ r.status = .ok
  | .pkClose => PackerFrame 2 s u ∧ r.status = .ok
  | .pkNbits | .pkPos | .upGood | .upEof | .upPos | .mkEnc _ | .mkDec _ => u = s ∧ r.status = .ok
  | .upOpen _ | .upRbit | .upRfld _ => UnpackerFrame 2 s u ∧ r.status = .ok
  | .bwPack =>
    u = { s with binRd := u.binRd } ∧ s.binRd ≤ u.binRd ∧
    (u.binRd = s.binRd ∨ u.binRd ≤ s.bin.length) ∧
    (r.status = .ok ∨ (r.status = .exhausted ∧ r.data = 0))
  | .bwUnpack word => u = { s with bout := s.bout ++ wordBytes word } ∧ r.status = .ok

/-- Reduces a rule made of checks and a result to its completed case. -/
theorem completed_of_rule {P : State → Reply → Prop} {b : Bool} {c : FaultCode} {x : Result}
    {u : State} {r : Reply} (h : (if b = true then raise c else x) = .ok (u, r))
    (hx : x = .ok (u, r) → P u r) : P u r := by
  split at h
  · exact absurd h raise_ne_ok
  · exact hx h

theorem completed_reply {P : State → Reply → Prop} {v u : State} {d : Word} {r : Reply}
    (h : reply v d = .ok (u, r)) (hp : P v { status := .ok, data := d }) : P u r := by
  obtain ⟨rfl, rfl⟩ := reply_eq_ok h
  exact hp

/-- Everything a command with a next state can have done. -/
theorem exec_cases {i : Instr} {s t : State} (h : exec i s = .next t) :
    (s.fault = true ∧ t = refuse s) ∨
    (s.fault = false ∧ ∃ u r, Completed i s u r ∧ t = u.respond r.status r.data) ∨
    (s.fault = false ∧ ∃ c, t = takeFault c s) := by
  have key : ∀ {rule : State → Result}, command s rule = .next t →
      (∀ u r, rule s = .ok (u, r) → Completed i s u r) →
      (s.fault = true ∧ t = refuse s) ∨
      (s.fault = false ∧ ∃ u r, Completed i s u r ∧ t = u.respond r.status r.data) ∨
      (s.fault = false ∧ ∃ c, t = takeFault c s) := by
    intro rule hc hr
    rcases command_next hc with h1 | ⟨hf, u, r, hu, ht⟩ | ⟨hf, c, -, ht⟩
    · exact .inl h1
    · exact .inr (.inl ⟨hf, u, r, hr u r hu, ht⟩)
    · exact .inr (.inr ⟨hf, c, ht⟩)
  cases i with
  | pkOpen nofin =>
    unfold exec at h
    exact key h fun u r hr => completed_of_rule hr fun hr =>
      completed_reply hr ⟨⟨rfl, [], by simp, by simp⟩, rfl⟩
  | pkWbit b =>
    unfold exec at h
    exact key h fun u r hr => completed_of_rule hr fun hr => completed_of_rule hr fun hr =>
      completed_reply hr ⟨writeBit_frame b s, rfl⟩
  | pkWfld v c =>
    unfold exec at h
    exact key h fun u r hr => completed_of_rule hr fun hr => completed_of_rule hr fun hr =>
      completed_of_rule hr fun hr => completed_reply hr ⟨writeField_frame _ _ s, rfl⟩
  | pkFlush =>
    unfold exec at h
    exact key h fun u r hr => completed_of_rule hr fun hr =>
      completed_reply hr ⟨flushPartial_frame s, rfl⟩
  | pkClose =>
    unfold exec at h
    exact key h fun u r hr => completed_of_rule hr fun hr =>
      completed_reply hr ⟨closePacker_frame s, rfl⟩
  | pkNbits =>
    unfold exec at h
    exact key h fun u r hr => completed_of_rule hr fun hr => completed_reply hr ⟨rfl, rfl⟩
  | pkPos =>
    unfold exec at h
    exact key h fun u r hr => completed_of_rule hr fun hr => completed_reply hr ⟨rfl, rfl⟩
  | upOpen unsized =>
    unfold exec at h
    refine key h fun u r hr => ?_
    cases unsized
    · simp only [Bool.false_eq_true, if_false] at hr
      split at hr
      · rename_i v hv
        exact completed_reply hr ⟨openSized_frame hv, rfl⟩
      · cases hr
    · exact completed_reply hr ⟨((UnpackerFrame.refl s).mono (by omega)).setUp _, rfl⟩
  | upRbit =>
    unfold exec at h
    refine key h fun u r hr => completed_of_rule hr fun hr => completed_of_rule hr fun hr => ?_
    exact ⟨(readBit_frame hr).1.mono (by omega), (readBit_frame hr).2⟩
  | upRfld c =>
    unfold exec at h
    refine key h fun u r hr => completed_of_rule hr fun hr => completed_of_rule hr fun hr =>
      completed_of_rule hr fun hr => ?_
    exact readField_frame hr
  | upGood =>
    unfold exec at h
    exact key h fun u r hr => completed_of_rule hr fun hr => completed_reply hr ⟨rfl, rfl⟩
  | upEof =>
    unfold exec at h
    exact key h fun u r hr => completed_of_rule hr fun hr => completed_reply hr ⟨rfl, rfl⟩
  | upPos =>
    unfold exec at h
    exact key h fun u r hr => completed_of_rule hr fun hr => completed_reply hr ⟨rfl, rfl⟩
  | mkEnc n =>
    unfold exec at h
    exact key h fun u r hr => completed_of_rule hr fun hr => completed_reply hr ⟨rfl, rfl⟩
  | mkDec w =>
    unfold exec at h
    exact key h fun u r hr => completed_reply hr ⟨rfl, rfl⟩
  | bwPack =>
    unfold exec at h
    refine key h fun u r hr => ?_
    simp only [popBytes_eq] at hr
    have hlen : ∀ n, ((s.bin.drop s.binRd).take n).length ≤ s.bin.length - s.binRd := by
      intro n; simp
    have hb := hlen bytesPerWord
    split at hr
    · refine completed_reply hr ⟨rfl, by simp, ?_, .inl rfl⟩
      simp only []
      omega
    · cases hr
      refine ⟨rfl, by simp, ?_, .inr ⟨rfl, rfl⟩⟩
      simp only []
      omega
  | bwUnpack w =>
    unfold exec at h
    exact key h fun u r hr => completed_reply hr ⟨pushBytes_eq _ s, rfl⟩

/-- Everything a step with a next state can have done: wait, reset, run the command the word decodes to,
or refuse or fault on a word that decodes to none (R45, R98, R206, R230, R231). -/
theorem step_cases {s t : State} (h : step s = .next t) :
    (s.program[s.index]? = none ∧ t = s) ∨
    (s.program[s.index]? = some .reset ∧ t = s.applyReset.tick) ∨
    (∃ w i u, s.program[s.index]? = some (.command w) ∧ decode w = .ok i ∧ exec i s = .next u ∧
      t = u.tick) ∨
    (∃ w e, s.program[s.index]? = some (.command w) ∧ decode w = .error e ∧
      ((s.fault = true ∧ t = (refuse s).tick) ∨
       (s.fault = false ∧ t = (takeFault .illegalCmd s).tick))) := by
  unfold step State.pending at h
  split at h
  · rename_i hp; cases h; exact .inl ⟨hp, rfl⟩
  · rename_i hp; cases h; exact .inr (.inl ⟨hp, rfl⟩)
  · rename_i w hp
    unfold runWord at h
    split at h
    · rename_i u hu
      cases h
      split at hu
      · rename_i i hd; exact .inr (.inr (.inl ⟨w, i, u, hp, hd, hu, rfl⟩))
      · rename_i e hd
        refine .inr (.inr (.inr ⟨w, e, hp, hd, ?_⟩))
        unfold illegalCommand at hu
        rcases command_next hu with ⟨hf, rfl⟩ | ⟨hf, u', r, hr, -⟩ | ⟨hf, c, hr, rfl⟩
        · exact .inl ⟨hf, rfl⟩
        · exact absurd hr raise_ne_ok
        · have := raise_eq_error hr; cases this; exact .inr ⟨hf, rfl⟩
    · cases h
    · cases h

end Sys2Proof.Machine
end

