-- ==== Sys2Proof/Laws/PerInstr.lean ====
section
/-! SUPPORT. Statements made for each command: the family `EncodedFields`, that the three fields of an
encoded command are its opcode and its operands (spec 30_encoding.md R100 to R102). -/

namespace Sys2Proof.Laws.EncodedFields

/-- The encoder puts the opcode, the argument and the value where R100 has them. -/
def Statement (i : Instr) : Prop :=
  opField (encode i) = i.opcode ∧ argField (encode i) = i.arg ∧ valueField (encode i) = i.value

theorem statement_of_fields (i : Instr) : Statement i :=
  ⟨opField_cmdWord _ _ _, argField_cmdWord _ _ _, valueField_cmdWord _ _ _⟩

theorem pkOpen (nofin : Bool) : Statement (.pkOpen nofin) := statement_of_fields _
theorem pkWbit (bit : Bool) : Statement (.pkWbit bit) := statement_of_fields _
theorem pkWfld (value : Word) (count : Byte) : Statement (.pkWfld value count) := statement_of_fields _
theorem pkFlush : Statement .pkFlush := statement_of_fields _
theorem pkClose : Statement .pkClose := statement_of_fields _
theorem pkNbits : Statement .pkNbits := statement_of_fields _
theorem pkPos : Statement .pkPos := statement_of_fields _
theorem upOpen (unsized : Bool) : Statement (.upOpen unsized) := statement_of_fields _
theorem upRbit : Statement .upRbit := statement_of_fields _
theorem upRfld (count : Byte) : Statement (.upRfld count) := statement_of_fields _
theorem upGood : Statement .upGood := statement_of_fields _
theorem upEof : Statement .upEof := statement_of_fields _
theorem upPos : Statement .upPos := statement_of_fields _
theorem mkEnc (n : Byte) : Statement (.mkEnc n) := statement_of_fields _
theorem mkDec (word : Word) : Statement (.mkDec word) := statement_of_fields _
theorem bwPack : Statement .bwPack := statement_of_fields _
theorem bwUnpack (word : Word) : Statement (.bwUnpack word) := statement_of_fields _

end Sys2Proof.Laws.EncodedFields
end

