-- ==== Sys2Proof/Laws/Reading.lean ====
section
/-! SUPPORT. What the unpacker's open and advance do to the invariants of R38 and to the bits that are
left, and what the invariants say about the position. -/

namespace Sys2Proof.Machine

open Config

/-! ### The words popped last -/

theorem poppedWord_one {s t : State} {m : Word} {rest : List Word}
    (hd : s.win.drop s.winRd = m :: rest) (hw : t.win = s.win) (hr : t.winRd = s.winRd + 1) :
    t.poppedWord 1 = some m := by
  have h := congrArg (·[0]?) hd
  simp only [List.getElem?_drop, List.getElem?_cons_zero, Nat.add_zero] at h
  simp [State.poppedWord, hw, hr, h]

theorem poppedWord_two {s t : State} (hw : t.win = s.win) (hr : t.winRd = s.winRd + 1) :
    t.poppedWord 2 = s.poppedWord 1 := by
  simp only [State.poppedWord, hw, hr]
  split
  · rw [if_pos (by omega)]; congr 1
  · rw [if_neg (by omega)]

theorem winAtEnd_of_drop {s : State} {ws : List Word} (h : s.win.drop s.winRd = ws) :
    s.winAtEnd = ws.isEmpty := by rw [winAtEnd_eq_isEmpty, h]

theorem drop_step {s t : State} {m : Word} {rest : List Word}
    (hd : s.win.drop s.winRd = m :: rest) (hw : t.win = s.win) (hr : t.winRd = s.winRd + 1) :
    t.win.drop t.winRd = rest := by
  have h := congrArg (List.drop 1) hd
  rw [List.drop_drop, List.drop_one, List.tail_cons] at h
  rw [hw, hr, h]

theorem winAtEnd_step {s t : State} {m : Word} {rest : List Word}
    (hd : s.win.drop s.winRd = m :: rest) (hw : t.win = s.win) (hr : t.winRd = s.winRd + 1) :
    t.winAtEnd = rest.isEmpty := winAtEnd_of_drop (drop_step hd hw hr)

/-! ### Bits left -/

theorem bitsLeft_final {s : State} (hm : s.up.mode = .sized) (hf : s.up.final = true) :
    s.bitsLeft = (fieldBits s.up.cur s.up.valid).drop s.up.pos := by
  simp [State.bitsLeft, hm, hf]

theorem bitsLeft_unsized {s : State} (hm : s.up.mode = .unsized) :
    s.bitsLeft = (fieldBits s.up.cur 64).drop s.up.pos ++ unsizedBits (s.win.drop s.winRd) := by
  simp [State.bitsLeft, hm]

/-- Before the final word, the bits left are those of the current word and the payload of the lookahead
and what follows it. -/
theorem bitsLeft_reading {s : State} (hm : s.up.mode = .sized) (hf : s.up.final = false)
    (hi : s.ReadingInv) :
    s.bitsLeft = (fieldBits s.up.cur 64).drop s.up.pos ++
      sizedBits (s.up.next :: s.win.drop s.winRd) := by
  obtain ⟨hp, -, hd, -, -, hx⟩ := hi
  have hp : s.up.pos ≤ 64 := hp
  have hb : sizedBits (s.up.cur :: s.up.next :: s.win.drop s.winRd) =
      fieldBits s.up.cur 64 ++ sizedBits (s.up.next :: s.win.drop s.winRd) := by
    match hr : s.win.drop s.winRd with
    | [] =>
      rw [winAtEnd_of_drop hr] at hd
      exact sizedBits_pair_below (hx hd)
    | _ :: _ => exact sizedBits_cons (by simp)
  have hs : s.bitsLeft =
      (sizedBits (s.up.cur :: s.up.next :: s.win.drop s.winRd)).drop s.up.pos := by
    simp [State.bitsLeft, hm, hf]
  rw [hs, hb, List.drop_append_of_le_length (by simpa using hp)]

/-! ### The advance -/

/-- The sized advance of an unpacker before its final word (R162 with R38): it never stops, keeps the
invariant of the phase it comes to, starts at position 0, and leaves the bits that follow the current
word. -/
theorem advance_reading {s : State} (hm : s.up.mode = .sized) (hf : s.up.final = false)
    (hi : s.ReadingInv) :
    ∃ t, advance s = .ok t ∧ t = { s with up := t.up, winRd := t.winRd } ∧
      t.up.mode = .sized ∧ t.up.state = s.up.state ∧ t.up.pos = 0 ∧
      (t.up.final = false → t.ReadingInv) ∧ (t.up.final = true → t.FinalInv) ∧
      t.bitsLeft = sizedBits (s.up.next :: s.win.drop s.winRd) := by
  obtain ⟨-, hv, hd, h1, h2, -⟩ := hi
  have ha : advance s = advanceSized s := by simp only [advance, hm]
  rw [ha]
  rcases advanceSized_cases s with ⟨hsd, e⟩ | ⟨hsd, hr, -⟩ | ⟨hsd, m, hr, hx, e⟩ |
    ⟨hsd, m, hr, hx, e⟩ | ⟨hsd, m, x, rest, hr, e⟩
  · rw [hsd] at hd
    have hend : s.win.drop s.winRd = [] := by
      rw [← List.isEmpty_iff, ← winAtEnd_eq_isEmpty, ← hd]
    refine ⟨_, e, rfl, hm, rfl, rfl, ?_, ?_, ?_⟩
    · intro h; cases h
    · intro _; exact ⟨Nat.zero_le _, hsd, hd.symm, .inr (.inl ⟨h1, rfl, rfl⟩)⟩
    refine Eq.trans (bitsLeft_final hm rfl) ?_
    rw [hend]
    rfl
  · rw [hsd, winAtEnd_of_drop hr] at hd
    cases hd
  · have p1 := fun (t : State) hw hr' => poppedWord_one (t := t) hr hw hr'
    have p2 := fun (t : State) hw hr' => (poppedWord_two (s := s) (t := t) hw hr').trans h1
    have p3 := fun (t : State) hw hr' => winAtEnd_step (t := t) hr hw hr'
    have hnext := drop_step (t := { s with winRd := s.winRd + 1 }) hr rfl rfl
    refine ⟨_, e, rfl, hm, rfl, rfl, ?_, ?_, ?_⟩
    · intro h; cases h
    · intro _; exact ⟨Nat.zero_le _, rfl, p3 _ rfl rfl,
        .inr (.inr ⟨p1 _ rfl rfl, p2 _ rfl rfl, rfl, hx⟩)⟩
    refine Eq.trans (bitsLeft_final hm rfl) ?_
    rw [hr, sizedBits_pair_extra hx]
    rfl
  · have p1 := fun (t : State) hw hr' => poppedWord_one (t := t) hr hw hr'
    have p2 := fun (t : State) hw hr' => (poppedWord_two (s := s) (t := t) hw hr').trans h1
    have p3 := fun (t : State) hw hr' => winAtEnd_step (t := t) hr hw hr'
    have hnext := drop_step (t := { s with winRd := s.winRd + 1 }) hr rfl rfl
    have hread : State.ReadingInv { s with
        up := { s.up with cur := s.up.next, next := m, pos := 0, srcDone := true }
        winRd := s.winRd + 1 } :=
      ⟨Nat.zero_le _, hv, Eq.symm (p3 _ rfl rfl), p1 _ rfl rfl, p2 _ rfl rfl, fun _ => hx⟩
    refine ⟨_, e, rfl, hm, rfl, rfl, fun _ => hread, ?_, ?_⟩
    · intro h; exact absurd (hf.symm.trans h) (by decide)
    refine Eq.trans (bitsLeft_reading hm hf hread) ?_
    change _ ++ sizedBits (m :: s.win.drop (s.winRd + 1)) = _
    rw [hnext, hr, sizedBits_pair_below hx]
    rfl
  · have p1 := fun (t : State) hw hr' => poppedWord_one (t := t) hr hw hr'
    have p2 := fun (t : State) hw hr' => (poppedWord_two (s := s) (t := t) hw hr').trans h1
    have p3 := fun (t : State) hw hr' => winAtEnd_step (t := t) hr hw hr'
    have hnext := drop_step (t := { s with winRd := s.winRd + 1 }) hr rfl rfl
    have hread : State.ReadingInv { s with
        up := { s.up with cur := s.up.next, next := m, pos := 0, srcDone := false }
        winRd := s.winRd + 1 } :=
      ⟨Nat.zero_le _, hv, Eq.symm (p3 _ rfl rfl), p1 _ rfl rfl, p2 _ rfl rfl, fun h => by cases h⟩
    refine ⟨_, e, rfl, hm, rfl, rfl, fun _ => hread, ?_, ?_⟩
    · intro h; exact absurd (hf.symm.trans h) (by decide)
    refine Eq.trans (bitsLeft_reading hm hf hread) ?_
    change _ ++ sizedBits (m :: s.win.drop (s.winRd + 1)) = _
    rw [hnext, hr, sizedBits_cons (w := s.up.next) (by simp)]
    rfl

/-- The unsized advance (R162 steps 1u, 2u): an underrun, or the next word and the bits that follow. -/
theorem advance_unsized {s : State} (hm : s.up.mode = .unsized) (hi : s.UnsizedInv) :
    (s.win.drop s.winRd = [] ∧ advance s = .error (.raise .upSrcUnderrun)) ∨
    (∃ t, advance s = .ok t ∧ t = { s with up := t.up, winRd := t.winRd } ∧
      t.up.mode = .unsized ∧ t.up.state = s.up.state ∧ t.up.pos = 0 ∧ t.UnsizedInv ∧
      t.bitsLeft = unsizedBits (s.win.drop s.winRd)) := by
  obtain ⟨-, hf, hd, hv, hn, -⟩ := hi
  have ha : advance s = advanceUnsized s := by simp only [advance, hm]
  rw [ha]
  rcases advanceUnsized_cases s with ⟨hr, e⟩ | ⟨m, rest, hr, e⟩
  · exact .inl ⟨hr, e⟩
  · have p1 := fun (t : State) hw hr' => poppedWord_one (t := t) hr hw hr'
    have p3 := fun (t : State) hw hr' => winAtEnd_step (t := t) hr hw hr'
    have hnext := drop_step (t := { s with winRd := s.winRd + 1 }) hr rfl rfl
    refine .inr ⟨_, e, rfl, hm, rfl, rfl,
      ⟨Nat.zero_le _, hf, hd, hv, hn, fun _ => p1 _ rfl rfl⟩, ?_⟩
    refine Eq.trans (bitsLeft_unsized hm) ?_
    change _ ++ unsizedBits (s.win.drop (s.winRd + 1)) = _
    rw [hnext, hr, unsizedBits_cons]
    rfl

/-! ### The open -/

/-- The sized open (R161): it never stops, comes to a legal phase at position 0, and offers the payload of
the words left in the source. -/
theorem openSized_inv (s : State) :
    ∃ t, openSized s = .ok t ∧ t = { s with up := t.up, winRd := t.winRd } ∧
      t.up.mode = .sized ∧ t.up.state = .opened ∧ t.up.pos = 0 ∧
      (t.up.final = false → t.ReadingInv) ∧ (t.up.final = true → t.FinalInv) ∧
      t.bitsLeft = sizedBits (s.win.drop s.winRd) := by
  rcases openSized_cases s with ⟨hr, e⟩ | ⟨w, hr, e⟩ | ⟨w, m, hr, hx, e⟩ | ⟨w, m, hr, hx, e⟩ |
    ⟨w, m, x, rest, hr, e⟩
  · refine ⟨_, e, rfl, rfl, rfl, rfl, ?_, ?_, ?_⟩
    · intro h; cases h
    · intro _; exact ⟨Nat.zero_le _, rfl, winAtEnd_of_drop hr, .inl ⟨rfl, rfl, rfl⟩⟩
    refine Eq.trans (bitsLeft_final rfl rfl) ?_
    rw [hr]
    rfl
  · refine ⟨_, e, rfl, rfl, rfl, rfl, ?_, ?_, ?_⟩
    · intro h; cases h
    · intro _; exact ⟨Nat.zero_le _, rfl, winAtEnd_step hr rfl rfl,
        .inr (.inl ⟨poppedWord_one hr rfl rfl, rfl, rfl⟩)⟩
    refine Eq.trans (bitsLeft_final rfl rfl) ?_
    rw [hr]
    rfl
  all_goals
    have hr1 := drop_step (t := { s with winRd := s.winRd + 1 }) hr rfl rfl
    have p0 := poppedWord_one (t := { s with winRd := s.winRd + 1 }) hr rfl rfl
    have p1 := fun (t : State) hw hr' => poppedWord_one (t := t) hr1 hw hr'
    have p2 := fun (t : State) hw hr' => (poppedWord_two (t := t) hw hr').trans p0
    have p3 := fun (t : State) hw hr' => winAtEnd_step (t := t) hr1 hw hr'
    have hnext := drop_step (t := { s with winRd := s.winRd + 2 }) hr1 rfl rfl
  · refine ⟨_, e, rfl, rfl, rfl, rfl, ?_, ?_, ?_⟩
    · intro h; cases h
    · intro _; exact ⟨Nat.zero_le _, rfl, p3 _ rfl rfl,
        .inr (.inr ⟨p1 _ rfl rfl, p2 _ rfl rfl, rfl, hx⟩)⟩
    refine Eq.trans (bitsLeft_final rfl rfl) ?_
    rw [hr, sizedBits_pair_extra hx]
    rfl
  · have hread : State.ReadingInv { s with
        up := { openedUnpacker .sized 0 with cur := w, next := m, srcDone := true }
        winRd := s.winRd + 2 } :=
      ⟨Nat.zero_le _, rfl, Eq.symm (p3 _ rfl rfl), p1 _ rfl rfl, p2 _ rfl rfl, fun _ => hx⟩
    refine ⟨_, e, rfl, rfl, rfl, rfl, fun _ => hread, ?_, ?_⟩
    · intro h; cases h
    refine Eq.trans (bitsLeft_reading rfl rfl hread) ?_
    change _ ++ sizedBits (m :: s.win.drop (s.winRd + 2)) = _
    rw [hnext, hr, sizedBits_pair_below hx]
    rfl
  · have hread : State.ReadingInv { s with
        up := { openedUnpacker .sized 0 with cur := w, next := m }
        winRd := s.winRd + 2 } :=
      ⟨Nat.zero_le _, rfl, Eq.symm (p3 _ rfl rfl), p1 _ rfl rfl, p2 _ rfl rfl, fun h => by cases h⟩
    refine ⟨_, e, rfl, rfl, rfl, rfl, fun _ => hread, ?_, ?_⟩
    · intro h; cases h
    refine Eq.trans (bitsLeft_reading rfl rfl hread) ?_
    change _ ++ sizedBits (m :: s.win.drop (s.winRd + 2)) = _
    rw [hnext, hr, sizedBits_cons (w := w) (by simp)]
    rfl

end Sys2Proof.Machine
end

