-- ==== Sys2Proof/Tests/Slice0.lean ====
section
/-! SUPPORT. Small checks: the operand checks of WellFormed, one command word for every command, one or
two steps of every command with the values of spec 95_test_vectors.md, and for every statement that has
hypotheses a state that meets them. -/

namespace Sys2Proof.Tests

open Sys2Proof Sys2Proof.Machine Sys2Proof.Config

/-! ### WellFormed: each check refuses an ill-formed command -/

theorem test_wellFormed_pkWfld_zero : (Instr.pkWfld 5 0).wellFormed = false := by decide
theorem test_wellFormed_pkWfld_large : (Instr.pkWfld 5 65).wellFormed = false := by decide
theorem test_wellFormed_pkWfld_full : (Instr.pkWfld 5 64).wellFormed = true := by decide
theorem test_wellFormed_upRfld_zero : (Instr.upRfld 0).wellFormed = false := by decide
theorem test_wellFormed_upRfld_large : (Instr.upRfld 65).wellFormed = false := by decide
theorem test_wellFormed_upRfld_one : (Instr.upRfld 1).wellFormed = true := by decide
theorem test_wellFormed_mkEnc_zero : (Instr.mkEnc 0).wellFormed = false := by decide
theorem test_wellFormed_mkEnc_large : (Instr.mkEnc 255).wellFormed = false := by decide

/-! ### Config: the derived constants are what R7 derives them as -/

theorem test_constants :
    2 ^ F = W ∧ payloadBits = W - F ∧ mshift = W - F - 1 ∧ bytesPerWord = W / 8 ∧ cntBits = 64 := by
  decide
theorem test_maxWord : maxWord = 0xFFFFFFFFFFFFFFFF#64 := by decide

/-! ### Decode: words written out from R100 to R102 (value, arg, op), as 95_test_vectors.md gives them -/

theorem test_decode_pkOpen : decode 0x0000000000000000_00_10#80 = .ok (.pkOpen false) := rfl
theorem test_decode_pkOpen_nofin : decode 0x0000000000000000_01_10#80 = .ok (.pkOpen true) := rfl
theorem test_decode_pkWbit : decode 0x0000000000000001_00_11#80 = .ok (.pkWbit true) := rfl
theorem test_decode_pkWfld : decode 0x00000000000000AB_08_12#80 = .ok (.pkWfld 0xAB 8) := rfl
theorem test_decode_pkFlush : decode 0x0000000000000000_00_13#80 = .ok .pkFlush := rfl
theorem test_decode_pkClose : decode 0x0000000000000000_00_14#80 = .ok .pkClose := rfl
theorem test_decode_pkNbits : decode 0x0000000000000000_00_15#80 = .ok .pkNbits := rfl
theorem test_decode_pkPos : decode 0x0000000000000000_00_16#80 = .ok .pkPos := rfl
theorem test_decode_upOpen_unsized : decode 0x0000000000000000_01_20#80 = .ok (.upOpen true) := rfl
theorem test_decode_upRbit : decode 0x0000000000000000_00_21#80 = .ok .upRbit := rfl
theorem test_decode_upRfld : decode 0x0000000000000000_3A_22#80 = .ok (.upRfld 58) := rfl
theorem test_decode_upGood : decode 0x0000000000000000_00_23#80 = .ok .upGood := rfl
theorem test_decode_upEof : decode 0x0000000000000000_00_24#80 = .ok .upEof := rfl
theorem test_decode_upPos : decode 0x0000000000000000_00_25#80 = .ok .upPos := rfl
theorem test_decode_mkEnc : decode 0x0000000000000000_06_30#80 = .ok (.mkEnc 6) := rfl
theorem test_decode_mkDec :
    decode 0x7E00000000000000_00_31#80 = .ok (.mkDec 0x7E00000000000000) := rfl
theorem test_decode_bwPack : decode 0x0000000000000000_00_40#80 = .ok .bwPack := rfl
theorem test_decode_bwUnpack :
    decode 0x0102030405060708_00_41#80 = .ok (.bwUnpack 0x0102030405060708) := rfl
/-- X2, X3, X4 of 95_test_vectors.md. -/
theorem test_decode_unknown :
    decode 0x0000000000000000_00_17#80 = .error (.unknownOpcode 0x17) ∧
    decode 0xFFFFFFFFFFFFFFFF_FF_FF#80 = .error (.unknownOpcode 0xFF) ∧
    decode 0x0000000000000000_00_42#80 = .error (.unknownOpcode 0x42) := ⟨rfl, rfl, rfl⟩
/-- R103 (b): bits no operand uses are ignored. -/
theorem test_decode_ignored : decode 0xFFFFFFFFFFFFFFFE_FF_11#80 = .ok (.pkWbit false) := rfl
/-- The table's mask and pattern are in the opcode byte, bits 7..0. -/
theorem test_decodeTableWord : decodeTableWord 80 0x3A22 = some (.upRfld 58) := by decide
theorem test_step_withFetchWord :
    step (State.reset.withFetchWord 80 0x10) =
      step { State.reset with program := [.command 0x10] } := rfl

/-! ### States -/

/-- An open packer; everything else as after reset. -/
def packing (cur : Word) (pos total : Nat) (emitted finEn : Bool) : State :=
  { State.reset with
    pk := { cur := cur, pos := pos, total := BitVec.ofNat 64 total, emitted := emitted, finEn := finEn,
            state := .opened } }

/-- A closed packer. -/
def packed : State :=
  { State.reset with
    pk := { cur := 0, pos := 0, total := 3, emitted := true, finEn := true, state := .closed } }

/-- An open unpacker over these words. -/
def reading (u : Unpacker) (win : List Word) (rd : Nat) : State :=
  { State.reset with up := u, win := win, winRd := rd }

/-- A sized unpacker, before its final word or on it. -/
def sizedUp (cur next : Word) (pos : Nat) (onFinal : Bool) (valid : Nat) (srcDone : Bool) : Unpacker :=
  { cur := cur, next := next, pos := pos, final := onFinal, valid := valid, srcDone := srcDone,
    mode := .sized, state := .opened }

/-- An unsized unpacker. -/
def unsizedUp (cur : Word) (pos : Nat) : Unpacker :=
  { cur := cur, next := 0, pos := pos, final := false, valid := 0, srcDone := false, mode := .unsized,
    state := .opened }

/-- Words of 95_test_vectors.md. -/
def allOnes : Word := 0xFFFFFFFFFFFFFFFF

/-- The stream of V1, just opened: six payload bits, 0 1 1 1 0 1. -/
def example1 : State := reading (sizedUp 0x0A0000000000002E 0x0A0000000000002E 0 true 6 true)
  [0x0A0000000000002E] 1

/-- The stream of U5 at the end of its first word, before the advance that finds the final word. -/
def atWordEnd : State := reading (sizedUp allOnes 1 64 false 0 true) [allOnes, 1] 2

/-- The stream of U5 in the middle of its first word (X-series: 33 bits left). -/
def midWord : State := reading (sizedUp allOnes 1 32 false 0 true) [allOnes, 1] 2

/-- The stream of U8 opened unsized and read to position 48 of its first word (U14). -/
def unsizedMid : State := reading (unsizedUp 0xCAFEBABEDEADBEEF 48)
  [0xCAFEBABEDEADBEEF, 0x0000000012345678] 1

/-- What a step of `exec` shows: what `f` reads in the next state, and the last response. -/
def shows {α : Type} (i : Instr) (s : State) (f : State → α) : Option (α × Option RspWord) :=
  match exec i s with
  | .next t => some (f t, t.responses.getLast?)
  | .fault _ => none
  | .refused _ => none

/-! ### One step of each command, values from 95_test_vectors.md -/

/-- X10. -/
theorem test_pkOpen_open : shows (.pkOpen false) (packing 5 3 3 false true) (fun t => t.fcode) =
    some (0x03, some 0x0000000000000000_83#72) := by decide
/-- L4: `nofin` clears `PK.fin_en`. -/
theorem test_pkOpen_nofin : shows (.pkOpen true) packed (fun t => (t.pk.finEn, t.pk.total)) =
    some ((false, 0), some 0#72) := by decide
/-- V1 step 3. -/
theorem test_pkWbit_inside : shows (.pkWbit true) (packing 0 1 1 false true) (fun t => t.pk.cur) =
    some (2, some 0#72) := by decide
/-- F6.2. -/
theorem test_pkWbit_fills : shows (.pkWbit true) (packing 0x7FFFFFFFFFFFFFFF 63 63 false true)
    (fun t => (t.pk.pos, t.wout)) = some ((0, [allOnes]), some 0#72) := by decide
/-- F5.2. -/
theorem test_pkWfld_straddles : shows (.pkWfld 0xAB 8) (packing 0x0FFFFFFFFFFFFFFF 60 60 false true)
    (fun t => (t.pk.cur, t.wout)) = some ((0xA, [0xBFFFFFFFFFFFFFFF]), some 0#72) := by decide
/-- F2.1: the high bits of the value are dropped. -/
theorem test_pkWfld_drops : shows (.pkWfld 0xFFFFFFFFFFFFFFF5 4) (packing 0 0 0 false true)
    (fun t => (t.pk.cur, t.pk.total)) = some ((5, 4), some 0#72) := by decide
/-- L1. -/
theorem test_pkFlush_partial : shows .pkFlush (packing 5 3 3 false true)
    (fun t => (t.wout, t.pk.total)) = some (([5], 3), some 0#72) := by decide
/-- L3. -/
theorem test_pkFlush_empty : shows .pkFlush (packing 0 0 0 false true)
    (fun t => (t.wout, t.pk.emitted)) = some (([], false), some 0#72) := by decide
/-- F1.3. -/
theorem test_pkClose_fits : shows .pkClose (packing 0x5B 7 7 false true) (fun t => t.wout) =
    some ([0x0C0000000000005B], some 0#72) := by decide
/-- F10.2. -/
theorem test_pkClose_extra : shows .pkClose (packing 0 58 58 false true) (fun t => t.wout) =
    some ([0, 0x7200000000000000], some 0#72) := by decide
/-- V8. -/
theorem test_pkNbits : shows .pkNbits (packing 0xF 4 68 true true) (fun t => t.wout) =
    some ([], some 0x0000000000000044_00#72) := by decide
/-- V8. -/
theorem test_pkPos : shows .pkPos (packing 0xF 4 68 true true) (fun t => t.wout) =
    some ([], some 0x0000000000000004_00#72) := by decide
/-- U3: the marker-only word is found at the open. -/
theorem test_upOpen_extra :
    shows (.upOpen false) { State.reset with win := [0x03FFFFFFFFFFFFFF, 0x7200000000000000] }
      (fun t => (t.up, t.winRd)) =
    some ((sizedUp 0x03FFFFFFFFFFFFFF 0x7200000000000000 0 true 58 true, 2), some 0#72) := by decide
/-- U12. -/
theorem test_upOpen_unsized : shows (.upOpen true) { State.reset with win := [5] }
    (fun t => (t.up, t.winRd)) = some ((unsizedUp 0 64, 0), some 0#72) := by decide
/-- U5: the read advances to the final word. -/
theorem test_upRbit_advances : shows .upRbit atWordEnd (fun t => t.up) =
    some (sizedUp 1 1 1 true 1 true, some 0x0000000000000001_00#72) := by decide
/-- X21. -/
theorem test_upRbit_empty : shows .upRbit (reading (sizedUp 0 0 0 true 0 true) [] 0)
    (fun t => (t.fault, t.up.pos)) = some ((true, 0), some 0x0000000000000000_88#72) := by decide
/-- U14: a straddling read. -/
theorem test_upRfld_straddles : shows (.upRfld 32) unsizedMid (fun t => (t.up.pos, t.winRd)) =
    some ((16, 2), some 0x000000005678CAFE_00#72) := by decide
/-- U5: the second read of 32 and 34 is truncated and its advance undone. -/
theorem test_upRfld_truncated : shows (.upRfld 34) midWord (fun t => t.up) =
    some (midWord.up, some 0x0000000000000000_89#72) := by decide
/-- U12. -/
theorem test_upGood : shows .upGood (reading (unsizedUp 0 64) [5] 0) (fun t => t.up.pos) =
    some (64, some 0x0000000000000001_00#72) := by decide
/-- U5: no end before the final word is reached. -/
theorem test_upEof : shows .upEof atWordEnd (fun t => t.up.final) =
    some (false, some 0x0000000000000000_00#72) := by decide
/-- U5: the position is not reduced. -/
theorem test_upPos : shows .upPos atWordEnd (fun t => t.up.pos) =
    some (64, some 0x0000000000000040_00#72) := by decide
theorem test_mkEnc : shows (.mkEnc 6) State.reset (fun t => t.fault) =
    some (false, some 0x0A00000000000000_00#72) := by decide
/-- X27. -/
theorem test_mkEnc_bad : shows (.mkEnc 65) State.reset (fun t => t.fcode) =
    some (0x0B, some 0x0000000000000000_8B#72) := by decide
theorem test_mkDec_wraps : shows (.mkDec 0x7FFFFFFFFFFFFFFF) State.reset (fun t => t.fault) =
    some (false, some 0x0000000000000040_00#72) := by decide
theorem test_mkDec_top : shows (.mkDec 0x8A00000000000000) State.reset (fun t => t.fault) =
    some (false, some 0x0000000000000006_00#72) := by decide
/-- B1. -/
theorem test_bwPack : shows .bwPack { State.reset with bin := [1, 2, 3, 4, 5, 6, 7, 8, 0x0A] }
    (fun t => t.binRd) = some (8, some 0x0102030405060708_00#72) := by decide
/-- B3. -/
theorem test_bwPack_tail : shows .bwPack { State.reset with bin := [0xAA, 0xBB, 0xCC] }
    (fun t => (t.binRd, t.fault)) = some ((3, false), some 0x0000000000000000_01#72) := by decide
/-- B7. -/
theorem test_bwUnpack : shows (.bwUnpack 0x0A0000000000002E) State.reset (fun t => t.bout) =
    some ([0x0A, 0, 0, 0, 0, 0, 0, 0x2E], some 0#72) := by decide
/-- X29: a faulted block refuses an unknown opcode too. -/
theorem test_refused :
    (match step { State.reset with fault := true, fcode := 0x0B, program := [.command 0x99] } with
     | .next t => t.responses
     | _ => []) = [0x000000000000000B_FF#72] := by decide

/-! ### Legal states that the statements speak of -/

theorem legal_example1 : example1.Inv :=
  ⟨by decide, ⟨by decide, by decide, by decide, by decide⟩, by decide, by decide, by decide⟩

theorem legal_atWordEnd : atWordEnd.Inv :=
  ⟨by decide, ⟨by decide, by decide, by decide, by decide⟩, by decide, by decide, by decide⟩

theorem legal_midWord : midWord.Inv :=
  ⟨by decide, ⟨by decide, by decide, by decide, by decide⟩, by decide, by decide, by decide⟩

theorem legal_unsizedMid : unsizedMid.Inv :=
  ⟨by decide, ⟨by decide, by decide, by decide, by decide⟩, by decide, by decide, by decide⟩

/-! ### Witnesses: states that meet the hypotheses of the statements -/

theorem witness_AssertedResetRestoresTheBlock :
    ∃ s : State, s.program[s.index]? = some .reset ∧ s.fault = true :=
  ⟨{ State.reset with program := [.reset], fault := true, fcode := 3 }, by decide⟩

theorem witness_IdleBlockWaits : ∃ s : State, s.program[s.index]? = none ∧ s.pk.state = .opened :=
  ⟨packing 1 1 1 false true, by decide⟩

theorem witness_StepRunsTheDecodedCommand : ∃ (s : State) (w : CmdWord) (i : Instr),
    s.program[s.index]? = some (.command w) ∧ decode w = .ok i :=
  ⟨{ State.reset with program := [.command 0x10] }, 0x10, .pkOpen false, by decide, rfl⟩

theorem witness_UnknownOpcodeFaults : ∃ (s : State) (w : CmdWord), s.fault = false ∧
    s.program[s.index]? = some (.command w) ∧ w.toNat % 256 ∉ opcodes :=
  ⟨{ State.reset with program := [.command 0x17] }, 0x17, by decide⟩

theorem witness_IgnoredBitsHaveNoEffect : ∃ (w w' : CmdWord) (i : Instr), w ≠ w' ∧ decode w = .ok i ∧
    w &&& i.usedBits = w' &&& i.usedBits :=
  ⟨0x11, 0xFFFFFFFFFFFFFFFE_FF_11, .pkWbit false, by decide, rfl, by decide⟩

theorem witness_PkOpenStartsAnEmptyStream :
    (∃ s : State, s.fault = false ∧ s.pk.state ≠ .opened ∧ s.pk.state = .idle) ∧
    (∃ s : State, s.fault = false ∧ s.pk.state ≠ .opened ∧ s.pk.state = .closed) :=
  ⟨⟨State.reset, by decide⟩, ⟨packed, by decide⟩⟩

theorem witness_PkWbitAppendsOneBit (pos : Nat) (h : pos = 62 ∨ pos = 63) :
    ∃ s : State, s.fault = false ∧ s.pk.state = .opened ∧ s.pk.pos < 64 ∧
      s.pk.cur.toNat < 2 ^ s.pk.pos ∧ s.pk.total.toNat + 1 ≤ 2 ^ 64 - 1 ∧ s.pk.pos = pos := by
  rcases h with rfl | rfl
  · exact ⟨packing 0x3FFFFFFFFFFFFFFF 62 62 false true, by decide⟩
  · exact ⟨packing 0x7FFFFFFFFFFFFFFF 63 (2 ^ 64 - 2) true true, by decide⟩

theorem witness_PkWfldAppendsTheField (pos : Nat) (count : Byte)
    (h : (pos, count) = (0, 63) ∨ (pos, count) = (0, 64) ∨ (pos, count) = (63, 64)) :
    ∃ s : State, s.fault = false ∧ s.pk.state = .opened ∧ 1 ≤ count.toNat ∧ count.toNat ≤ 64 ∧
      s.pk.pos < 64 ∧ s.pk.cur.toNat < 2 ^ s.pk.pos ∧
      s.pk.total.toNat + count.toNat ≤ 2 ^ 64 - 1 ∧ s.pk.pos = pos := by
  rcases h with h | h | h <;> cases h
  · exact ⟨packing 0 0 0 false true, by decide⟩
  · exact ⟨packing 0 0 (2 ^ 64 - 65) true true, by decide⟩
  · exact ⟨packing 0x7FFFFFFFFFFFFFFF 63 63 false true, by decide⟩

theorem witness_PkFlushPushesThePartialWord :
    (∃ s : State, s.fault = false ∧ s.pk.state = .opened ∧ s.pk.pos = 0) ∧
    (∃ s : State, s.fault = false ∧ s.pk.state = .opened ∧ 0 < s.pk.pos) :=
  ⟨⟨packing 0 0 0 false true, by decide⟩, ⟨packing 1 1 1 false true, by decide⟩⟩

/-- The hypotheses that the five cases of the close share. -/
abbrev Closable (s : State) (finEn : Bool) : Prop :=
  s.fault = false ∧ s.pk.state = .opened ∧ s.pk.finEn = finEn ∧ s.pk.pos < 64 ∧
  s.pk.cur.toNat < 2 ^ s.pk.pos

theorem witness_PkCloseWritesTheMarker :
    (∃ s, Closable s true ∧ s.pk.emitted = false ∧ s.pk.pos = 0) ∧
    (∃ s, Closable s true ∧ 1 ≤ s.pk.pos ∧ s.pk.pos ≤ 57 ∧ s.pk.pos = 1) ∧
    (∃ s, Closable s true ∧ 1 ≤ s.pk.pos ∧ s.pk.pos ≤ 57 ∧ s.pk.pos = 57) ∧
    (∃ s, Closable s true ∧ 58 ≤ s.pk.pos ∧ s.pk.pos = 58) ∧
    (∃ s, Closable s true ∧ 58 ≤ s.pk.pos ∧ s.pk.pos = 63) ∧
    (∃ s, Closable s true ∧ s.pk.emitted = true ∧ s.pk.pos = 0) :=
  ⟨⟨packing 0 0 0 false true, by decide⟩, ⟨packing 1 1 1 false true, by decide⟩,
   ⟨packing 0x1FFFFFFFFFFFFFF 57 57 false true, by decide⟩,
   ⟨packing 0x3FFFFFFFFFFFFFF 58 58 false true, by decide⟩,
   ⟨packing 0x7FFFFFFFFFFFFFFF 63 63 false true, by decide⟩, ⟨packing 0 0 64 true true, by decide⟩⟩

theorem witness_PkCloseWithoutMarker :
    (∃ s, Closable s false ∧ s.pk.pos = 0) ∧ (∃ s, Closable s false ∧ 0 < s.pk.pos) :=
  ⟨⟨packing 0 0 0 false false, by decide⟩, ⟨packing 5 3 3 false false, by decide⟩⟩

theorem witness_PackerQueriesAnswer :
    (∃ s : State, s.fault = false ∧ s.pk.state ≠ .idle ∧ s.pk.state = .opened) ∧
    (∃ s : State, s.fault = false ∧ s.pk.state ≠ .idle ∧ s.pk.state = .closed) :=
  ⟨⟨packing 5 3 3 false true, by decide⟩, ⟨packed, by decide⟩⟩

theorem witness_PackerLifeCycleFaults :
    (∃ s : State, s.fault = false ∧ s.pk.state ≠ .opened) ∧
    (∃ s : State, s.fault = false ∧ s.pk.state = .idle) ∧
    (∃ s : State, s.fault = false ∧ s.pk.state = .opened) :=
  ⟨⟨packed, by decide⟩, ⟨State.reset, by decide⟩, ⟨packing 5 3 3 false true, by decide⟩⟩

theorem witness_BadCountsFault (count : Byte) (h : count = 0 ∨ count = 65 ∨ count = 255) :
    (count.toNat = 0 ∨ 64 < count.toNat) ∧
    (∃ s : State, s.fault = false ∧ s.pk.state = .opened) ∧
    (∃ s : State, s.fault = false ∧ s.up.state = .opened) := by
  refine ⟨?_, ⟨packing 5 3 3 false true, by decide⟩, ⟨example1, by decide⟩⟩
  rcases h with rfl | rfl | rfl <;> decide

/-- X14, X15. -/
theorem witness_CounterOverflowFaults :
    (∃ s : State, s.fault = false ∧ s.pk.state = .opened ∧ s.pk.total.toNat = 2 ^ 64 - 1) ∧
    (∃ (s : State) (count : Byte), s.fault = false ∧ s.pk.state = .opened ∧ 1 ≤ count.toNat ∧
      count.toNat ≤ 64 ∧ 2 ^ 64 - 1 < s.pk.total.toNat + count.toNat) :=
  ⟨⟨packing 0 0 (2 ^ 64 - 1) true true, by decide⟩,
   ⟨packing 0 0 (2 ^ 64 - 64) true true, 64, by decide⟩⟩

theorem witness_FieldWriteIsItsBitWrites : ∃ (s : State) (count : Byte), s.fault = false ∧
    s.pk.state = .opened ∧ s.pk.Inv ∧ 1 ≤ count.toNat ∧ count.toNat ≤ 64 ∧
    s.pk.total.toNat + count.toNat ≤ 2 ^ 64 - 1 :=
  ⟨packing 0x7FFFFFFFFFFFFFFF 63 63 false true, 64, by decide⟩

theorem witness_FieldWriteSplits : ∃ (s : State) (a b c : Byte), s.fault = false ∧
    s.pk.state = .opened ∧ s.pk.Inv ∧ 1 ≤ a.toNat ∧ 1 ≤ b.toNat ∧ a.toNat + b.toNat = c.toNat ∧
    c.toNat ≤ 64 ∧ s.pk.total.toNat + c.toNat ≤ 2 ^ 64 - 1 :=
  ⟨packing 0x0FFFFFFFFFFFFFFF 60 60 false true, 1, 63, 64, by decide⟩

theorem witness_WordsPushedByOneCommand : ∃ t, exec .pkClose (packing 0 58 58 false true) = .next t :=
  ⟨_, rfl⟩

/-- A packer that has taken in 1, 0, 1 since its open. -/
theorem holds_three : (packing 5 3 3 false true).holdsBits [] [true, false, true] := by
  refine ⟨by decide, by decide, by decide, by decide, by decide, by decide⟩

theorem witness_WritesExtendTheBitStream : ∃ (s : State) (base : List Word) (bits : List Bool)
    (count : Byte), s.fault = false ∧ s.holdsBits base bits ∧ bits.length + 1 ≤ 2 ^ 64 - 1 ∧
    legalCount count = true ∧ bits.length + count.toNat ≤ 2 ^ 64 - 1 :=
  ⟨_, _, _, 64, by decide, holds_three, by decide, by decide, by decide⟩

theorem witness_CloseCompletesTheStream : ∃ (s : State) (base : List Word) (bits : List Bool),
    s.fault = false ∧ s.holdsBits base bits ∧ s.pk.finEn = true :=
  ⟨_, _, _, by decide, holds_three, by decide⟩

theorem witness_FlushDeliversEveryBit : ∃ (s : State) (base : List Word) (bits : List Bool),
    s.fault = false ∧ s.holdsBits base bits :=
  ⟨_, _, _, by decide, holds_three⟩

theorem witness_FullWordsHoldTheBitsInOrder : ∃ (bits : List Bool) (t : Nat),
    t < 64 * (bits.length / 64) ∧ t = 63 :=
  ⟨List.replicate 65 true, 63, by decide⟩

theorem witness_MixedWidthView : ∃ p : Nat, p < 64 ∧ p = 63 := ⟨63, by decide⟩

theorem witness_UpOpenLoadsTheUnpacker :
    (∃ s : State, s.fault = false ∧ s.win.drop s.winRd = []) ∧
    (∃ (s : State) (w : Word), s.fault = false ∧ s.win.drop s.winRd = [w]) ∧
    (∃ (s : State) (w m : Word), s.fault = false ∧ s.win.drop s.winRd = [w, m] ∧
      decodeMarker m = 58) ∧
    (∃ (s : State) (w m : Word), s.fault = false ∧ s.win.drop s.winRd = [w, m] ∧
      decodeMarker m = 57) ∧
    (∃ (s : State) (w m x : Word) (rest : List Word), s.fault = false ∧
      s.win.drop s.winRd = w :: m :: x :: rest) :=
  ⟨⟨State.reset, by decide⟩, ⟨{ State.reset with win := [5] }, 5, by decide⟩,
   ⟨{ State.reset with win := [5, 0x7200000000000000] }, 5, 0x7200000000000000, by decide⟩,
   ⟨{ State.reset with win := [5, 0x7000000000000000] }, 5, 0x7000000000000000, by decide⟩,
   ⟨{ State.reset with win := [5, 6, 7] }, 5, 6, 7, [], by decide⟩⟩

theorem witness_UpRbitReadsInsideTheWord :
    (∃ s : State, s.fault = false ∧ s.up.state = .opened ∧ s.up.pos < 64 ∧ s.up.mode = .sized ∧
      s.up.final = true ∧ s.up.pos < s.up.valid) ∧
    (∃ s : State, s.fault = false ∧ s.up.state = .opened ∧ s.up.pos < 64 ∧ s.up.mode = .unsized) :=
  ⟨⟨example1, by decide⟩, ⟨unsizedMid, by decide⟩⟩

theorem witness_UpRbitAdvancesAtTheWordEnd :
    (∃ s : State, s.fault = false ∧ s.up.state = .opened ∧ s.up.pos = 64 ∧ s.up.mode = .sized ∧
      s.up.final = false ∧ s.up.srcDone = true) ∧
    (∃ (s : State) (m : Word), s.fault = false ∧ s.up.state = .opened ∧ s.up.pos = 64 ∧
      s.up.mode = .sized ∧ s.up.final = false ∧ s.up.srcDone = false ∧ s.win.drop s.winRd = [m] ∧
      58 ≤ decodeMarker m ∧ decodeMarker m = 58) ∧
    (∃ (s : State) (m : Word), s.fault = false ∧ s.up.state = .opened ∧ s.up.pos = 64 ∧
      s.up.mode = .sized ∧ s.up.final = false ∧ s.up.srcDone = false ∧ s.win.drop s.winRd = [m] ∧
      decodeMarker m < 58 ∧ decodeMarker m = 57) ∧
    (∃ (s : State) (m x : Word) (rest : List Word), s.fault = false ∧ s.up.state = .opened ∧
      s.up.pos = 64 ∧ s.up.mode = .sized ∧ s.up.final = false ∧ s.up.srcDone = false ∧
      s.win.drop s.winRd = m :: x :: rest) ∧
    (∃ (s : State) (m : Word) (rest : List Word), s.fault = false ∧ s.up.state = .opened ∧
      s.up.pos = 64 ∧ s.up.mode = .unsized ∧ s.win.drop s.winRd = m :: rest) :=
  ⟨⟨atWordEnd, by decide⟩,
   ⟨reading (sizedUp 1 2 64 false 0 false) [1, 2, 0x7200000000000000] 2, 0x7200000000000000, by decide⟩,
   ⟨reading (sizedUp 1 2 64 false 0 false) [1, 2, 0x7000000000000000] 2, 0x7000000000000000, by decide⟩,
   ⟨reading (sizedUp 1 2 64 false 0 false) [1, 2, 3, 4] 2, 3, 4, [], by decide⟩,
   ⟨reading (unsizedUp 0 64) [5] 0, 5, [], by decide⟩⟩

theorem witness_UpRfldReadsInsideTheWord :
    (∃ (s : State) (count : Byte), s.fault = false ∧ s.up.state = .opened ∧ 1 ≤ count.toNat ∧
      s.up.pos < 64 ∧ s.up.pos + count.toNat ≤ 64 ∧ s.up.mode = .sized ∧ s.up.final = true ∧
      s.up.pos + count.toNat = s.up.valid) ∧
    (∃ (s : State) (count : Byte), s.fault = false ∧ s.up.state = .opened ∧ 1 ≤ count.toNat ∧
      s.up.pos < 64 ∧ s.up.pos + count.toNat = 64 ∧ s.up.mode = .unsized) :=
  ⟨⟨example1, 6, by decide⟩, ⟨unsizedMid, 16, by decide⟩⟩

theorem witness_UpRfldStraddlesTwoWords :
    (∃ (s : State) (count : Byte), s.fault = false ∧ s.up.state = .opened ∧ count.toNat ≤ 64 ∧
      s.up.pos < 64 ∧ 64 < s.up.pos + count.toNat ∧ s.up.mode = .sized ∧ s.up.final = false ∧
      s.up.srcDone = true ∧ s.up.pos + count.toNat - 64 ≤ decodeMarker s.up.next) ∧
    (∃ (s : State) (count : Byte) (w : Word) (rest : List Word), s.fault = false ∧
      s.up.state = .opened ∧ count.toNat ≤ 64 ∧ s.up.pos < 64 ∧ 64 < s.up.pos + count.toNat ∧
      s.up.mode = .unsized ∧ s.win.drop s.winRd = w :: rest) :=
  ⟨⟨midWord, 33, by decide⟩, ⟨unsizedMid, 64, 0x12345678, [], by decide⟩⟩

theorem witness_UnpackerQueriesAnswer : ∃ s : State, s.fault = false ∧ s.up.state = .opened :=
  ⟨example1, by decide⟩

theorem witness_UnpackerNotOpenFaults : ∃ s : State, s.fault = false ∧ s.up.state = .idle :=
  ⟨packed, by decide⟩

theorem witness_ReadAtTheEndFaults : ∃ (s : State) (count : Byte), s.fault = false ∧
    s.up.state = .opened ∧ s.up.mode = .sized ∧ s.up.final = true ∧ s.up.valid ≤ s.up.pos ∧
    1 ≤ count.toNat ∧ count.toNat ≤ 64 :=
  ⟨reading (sizedUp 0 0 0 true 0 true) [] 0, 64, by decide⟩

theorem witness_TruncatedFieldReadFaults :
    (∃ (s : State) (count : Byte), s.Inv ∧ s.fault = false ∧ s.up.state = .opened ∧
      s.up.mode = .sized ∧ legalCount count = true ∧ 0 < s.bitsLeft.length ∧
      s.bitsLeft.length < count.toNat ∧ s.up.final = true) ∧
    (∃ (s : State) (count : Byte), s.Inv ∧ s.fault = false ∧ s.up.state = .opened ∧
      s.up.mode = .sized ∧ legalCount count = true ∧ 0 < s.bitsLeft.length ∧
      s.bitsLeft.length < count.toNat ∧ s.up.final = false) :=
  ⟨⟨example1, 7, legal_example1, by decide⟩, ⟨midWord, 34, legal_midWord, by decide⟩⟩

theorem witness_UnsizedUnderrunFaults :
    (∃ s : State, s.fault = false ∧ s.up.state = .opened ∧ s.up.mode = .unsized ∧
      s.win.length ≤ s.winRd ∧ 64 ≤ s.up.pos) ∧
    (∃ (s : State) (count : Byte), s.fault = false ∧ s.up.state = .opened ∧ s.up.mode = .unsized ∧
      s.win.length ≤ s.winRd ∧ 1 ≤ count.toNat ∧ count.toNat ≤ 64 ∧
      64 < s.up.pos + count.toNat ∧ s.up.pos = 63) :=
  ⟨⟨reading (unsizedUp 0 64) [] 0, by decide⟩, ⟨reading (unsizedUp 5 63) [5] 1, 2, by decide⟩⟩

theorem witness_UpOpenOffersThePayload : ∃ s : State, s.Inv ∧ s.fault = false :=
  ⟨midWord, legal_midWord, by decide⟩

theorem witness_ReadsConsumeTheBitStream :
    (∃ (s : State) (b : Bool) (rest : List Bool), s.Inv ∧ s.fault = false ∧ s.up.state = .opened ∧
      s.bitsLeft = b :: rest) ∧
    (∃ (s : State) (count : Byte), s.Inv ∧ s.fault = false ∧ s.up.state = .opened ∧
      legalCount count = true ∧ count.toNat = s.bitsLeft.length) ∧
    (∃ (s : State) (count : Byte), s.Inv ∧ s.fault = false ∧ s.up.state = .opened ∧
      s.up.mode = .unsized ∧ legalCount count = true ∧ count.toNat ≤ s.bitsLeft.length) :=
  ⟨⟨atWordEnd, true, [], legal_atWordEnd, by decide⟩, ⟨midWord, 33, legal_midWord, by decide⟩,
   ⟨unsizedMid, 64, legal_unsizedMid, by decide⟩⟩

theorem witness_EofMeansNoBitsLeft : ∃ s : State, s.Inv ∧ s.fault = false ∧ s.up.state = .opened :=
  ⟨unsizedMid, legal_unsizedMid, by decide⟩

theorem witness_FieldReadIsItsBitReads : ∃ (s t : State) (count : Byte), s.Inv ∧ s.fault = false ∧
    s.up.state = .opened ∧ exec (.upRfld count) s = .next t ∧ t.fault = false :=
  ⟨midWord, _, 33, legal_midWord, by decide, by decide, rfl, by decide⟩

theorem witness_MkEncAnswersTheMarker (n : Byte) (h : n = 1 ∨ n = 64) :
    1 ≤ n.toNat ∧ n.toNat ≤ 64 ∧ State.reset.fault = false := by
  rcases h with rfl | rfl <;> decide

theorem witness_MkDecAnswersTheCount : ∃ s : State, s.fault = false := ⟨packed, by decide⟩

theorem witness_MarkerLaws : ∃ (n m : Nat) (p : Word), 1 ≤ n ∧ n ≤ 64 ∧ 1 ≤ m ∧ m ≤ 64 ∧
    p.toNat < 2 ^ 57 ∧ encodeMarker n = encodeMarker m :=
  ⟨64, 64, 0x01FFFFFFFFFFFFFF, by decide⟩

theorem witness_BwPackAssemblesAWord :
    (∃ (s : State) (b0 b1 b2 b3 b4 b5 b6 b7 : Byte) (rest : List Byte), s.fault = false ∧
      s.binRd ≤ s.bin.length ∧
      s.bin.drop s.binRd = b0 :: b1 :: b2 :: b3 :: b4 :: b5 :: b6 :: b7 :: rest) ∧
    (∃ s : State, s.fault = false ∧ s.binRd ≤ s.bin.length ∧ s.bin.length - s.binRd < 8 ∧
      s.bin.length - s.binRd = 7) :=
  ⟨⟨{ State.reset with bin := [1, 2, 3, 4, 5, 6, 7, 8] }, 1, 2, 3, 4, 5, 6, 7, 8, [], by decide⟩,
   ⟨{ State.reset with bin := [1, 2, 3, 4, 5, 6, 7] }, by decide⟩⟩

theorem witness_BwUnpackAppendsTheBytes : ∃ s : State, s.fault = false := ⟨packed, by decide⟩

theorem witness_ConverterInverseLaws :
    (∃ (s t u : State) (w : Word), s.fault = false ∧ exec (.bwUnpack w) s = .next t ∧
      u.fault = false ∧ u.bin.drop u.binRd = t.bout.drop s.bout.length) ∧
    (∃ bs : List Byte, bs.length % 8 = 0 ∧ bs ≠ []) :=
  ⟨⟨State.reset, _, { State.reset with bin := [1, 2, 3, 4, 5, 6, 7, 8] }, 0x0102030405060708,
     by decide, rfl, by decide, by decide⟩,
   ⟨[1, 2, 3, 4, 5, 6, 7, 8], by decide⟩⟩

theorem witness_FaultedBlockRefusesEverything :
    ∃ (s : State) (w : CmdWord), s.fault = true ∧ s.program[s.index]? = some (.command w) :=
  ⟨{ State.reset with fault := true, fcode := 0x0B, program := [.command 0x99] }, 0x99, by decide⟩

theorem witness_OnlyResetClearsTheFault :
    ∃ s t : State, step s = .next t ∧ s.fault = true ∧ t.fault = false :=
  ⟨{ State.reset with fault := true, fcode := 0x0B, program := [.reset] }, _, rfl, by decide, by decide⟩

theorem witness_FaultsArePrecise :
    (∃ s t : State, s.fault = false ∧ step s = .next t ∧ t.fault = true ∧ t.fcode = 0x09) ∧
    (∃ s t : State, s.fault = false ∧ step s = .next t ∧ t.fault = true ∧ t.fcode = 0x01) :=
  ⟨⟨{ midWord with program := [.command 0x2222] }, _, by decide, rfl, by decide⟩,
   ⟨{ midWord with program := [.command 0x17] }, _, by decide, rfl, by decide⟩⟩

theorem witness_OneResponsePerCommand : ∃ (i : Instr) (s t : State), exec i s = .next t :=
  ⟨.bwPack, State.reset, _, rfl⟩

theorem witness_UnitsAreIndependent : ∃ (i : Instr) (s t : State), exec i s = .next t :=
  ⟨.upRfld 33, midWord, _, rfl⟩

theorem witness_StreamsOnlyMoveForward :
    ∃ s t : State, step s = .next t ∧ s.program[s.index]? ≠ some .reset :=
  ⟨{ State.reset with program := [.command 0x41] }, _, rfl, by decide⟩

/-- U5 in the middle of its first word, with a read that advances to the final word. -/
theorem witness_EveryStepKeepsTheInvariants : ∃ s t : State, s.Inv ∧ step s = .next t :=
  ⟨{ midWord with program := [.command 0x2122] }, _,
   ⟨by decide, ⟨by decide, by decide, by decide, by decide⟩, by decide, by decide, by decide⟩, rfl⟩

theorem witness_LegalStatesNeverStop : ∃ s : State, s.Inv := ⟨midWord, legal_midWord⟩

/-- The field of V1, packed and unpacked. -/
theorem witness_FinalizedRoundTrip :
    ∃ (fs : List Field) (s : State), legalFields fs ∧ (bitsOfFields fs).length ≤ 2 ^ 64 - 1 ∧
      s.fault = false ∧ s.pk.state ≠ .opened ∧
      ∃ t words, execAll (.pkOpen false :: writeFields fs ++ [.pkClose]) s = .next t ∧
        t.wout = s.wout ++ words ∧
        ∃ u : State, u.Inv ∧ u.fault = false ∧ u.win.drop u.winRd = words := by
  refine ⟨[(0x2E, 6)], State.reset, by simp [legalFields, legalCount], by decide, by decide, by decide,
    _, [0x0A0000000000002E], rfl, by decide, State.boot [0x0A0000000000002E] [] [],
    ⟨by decide, ⟨by decide, by decide, by decide, by decide⟩, by decide, by decide, by decide⟩,
    by decide, by decide⟩

theorem witness_UnfinalizedRoundTrip :
    ∃ (fs : List Field) (s : State), legalFields fs ∧ (bitsOfFields fs).length ≤ 2 ^ 64 - 1 ∧
      s.fault = false ∧ s.pk.state ≠ .opened ∧
      ∃ t words, execAll (.pkOpen true :: writeFields fs ++ [.pkClose]) s = .next t ∧
        t.wout = s.wout ++ words ∧
        ∃ u : State, u.Inv ∧ u.fault = false ∧ u.win.drop u.winRd = words := by
  refine ⟨[(5, 3)], State.reset, by simp [legalFields, legalCount], by decide, by decide, by decide,
    _, [5], rfl, by decide, State.boot [5] [] [],
    ⟨by decide, ⟨by decide, by decide, by decide, by decide⟩, by decide, by decide, by decide⟩,
    by decide, by decide⟩

end Sys2Proof.Tests
end

section
/-! PROOFS. The invariants of the legal states: what every rule keeps of them, that no rule stops in a legal
state, and the four statements about reset, progress and preservation (spec 10_state.md R27, R38, R40, R43,
R45, R48; 30_encoding.md R98, R103). -/

namespace Sys2Proof.Machine

open Config

/-! ### Results that keep a property -/

/-- A computation of the block neither stops nor leaves `P`: it ends in a value with `P`, or it raises one of
the block's own faults, which discards what it did (R204). -/
def Keeps {α : Type} (P : α → Prop) : Except Halt α → Prop
  | .ok a => P a
  | .error (.raise _) => True
  | .error (.stuck _) => False

theorem Keeps.cases {α : Type} {P : α → Prop} {x : Except Halt α} (h : Keeps P x) :
    (∃ a, x = .ok a ∧ P a) ∨ ∃ c, x = .error (.raise c) := by
  match x, h with
  | .ok a, h => exact .inl ⟨a, rfl, h⟩
  | .error (.raise c), _ => exact .inr ⟨c, rfl⟩

theorem keeps_mono {α : Type} {P Q : α → Prop} {x : Except Halt α} (h : Keeps P x)
    (hpq : ∀ a, x = .ok a → P a → Q a) : Keeps Q x := by
  obtain ⟨a, rfl, ha⟩ | ⟨c, rfl⟩ := h.cases
  · exact hpq a rfl ha
  · trivial

/-- A check that raises a fault leaves the case where it passes. -/
theorem keeps_check {P : State × Reply → Prop} {b : Bool} {c : FaultCode} {x : Result}
    (h : b = false → Keeps P x) : Keeps P (if b = true then raise c else x) := by
  cases b
  · exact h rfl
  · trivial

/-- What a rule must have kept when it completes: the invariants of the two units and of the cursors; the
fault elements, the inputs and the host's side are as before. -/
structure Kept (s t : State) : Prop where
  packer : t.pk.Inv
  unpacker : t.UnpackerInv
  streams : t.StreamsInv
  frame : t = { s with
    pk := t.pk, up := t.up, wout := t.wout, winRd := t.winRd, bout := t.bout, binRd := t.binRd }

/-- A rule that keeps the invariants, whichever way it ends. -/
abbrev KeepsInv (s : State) (x : Result) : Prop := Keeps (fun p => Kept s p.1) x

theorem keepsInv_reply {s t : State} {d : Word} (h : Kept s t) : KeepsInv s (reply t d) := h

theorem Kept.refl {s : State} (hi : s.Inv) : Kept s s := by
  obtain ⟨hpk, hup, hst, -, -⟩ := hi
  exact ⟨hpk, hup, hst, rfl⟩

/-- An operation with the packer's frame keeps the invariants if it keeps the packer's. -/
theorem Kept.of_packerFrame {n : Nat} {s t : State} (hi : s.Inv) (hf : PackerFrame n s t)
    (hpk : t.pk.Inv) : Kept s t := by
  obtain ⟨-, hup, hst, -, -⟩ := hi
  obtain ⟨he, -⟩ := hf
  refine ⟨hpk, ?_, ?_, ?_⟩ <;> rw [he]
  · exact hup
  · exact hst

/-- An operation with the unpacker's frame keeps the invariants if it keeps the unpacker's. -/
theorem Kept.of_unpackerFrame {n : Nat} {s t : State} (hi : s.Inv) (hf : UnpackerFrame n s t)
    (hup : t.UnpackerInv) : Kept s t := by
  obtain ⟨hpk, -, ⟨hwin, hbin⟩, -, -⟩ := hi
  obtain ⟨he, -, -, hrd⟩ := hf
  have hwinEq : t.win = s.win := by rw [he]
  refine ⟨by rw [he]; exact hpk, hup, ⟨?_, by rw [he]; exact hbin⟩, by rw [he]⟩
  rw [hwinEq]
  omega

/-! ### The packer -/

theorem toNat_ofNat_le (n : Nat) : (BitVec.ofNat 64 n).toNat ≤ n := by
  rw [BitVec.toNat_ofNat]
  exact Nat.mod_le _ _

/-- The write of one bit keeps R27, if the counter can hold it (R122). -/
theorem writeBit_inv {b : Bool} {s : State} (h : s.pk.Inv) (ho : s.pk.state = .opened)
    (hc : s.pk.total.toNat + 1 ≤ 2 ^ 64 - 1) : (writeBit b s).pk.Inv := by
  obtain ⟨hpos, hcur, hle, hem, -, -⟩ := h
  have htot : (s.pk.total + 1).toNat = s.pk.total.toNat + 1 := by
    rw [BitVec.toNat_add]; exact Nat.mod_eq_of_lt (by simp; omega)
  have hbit : s.pk.cur.toNat + b.toNat * 2 ^ s.pk.pos < 2 ^ (s.pk.pos + 1) := by
    have := Nat.mul_le_mul_right (2 ^ s.pk.pos) b.toNat_le
    rw [pow_succ]; omega
  rw [writeBit_eq b s hpos hcur]
  dsimp only
  split
  · refine ⟨by assumption, ?_, by simp only [htot]; omega, ?_, by simp [ho], by simp [ho]⟩
    · exact lt_of_le_of_lt (toNat_ofNat_le _) hbit
    · intro he; simp only [htot, hem he]
  · exact ⟨by simp, by simp, by simp, by simp, by simp [ho], by simp [ho]⟩

/-- The write of a field keeps R27, if the counter can hold it (R123). -/
theorem writeField_inv {v : Word} {n : Nat} {s : State} (h : s.pk.Inv) (ho : s.pk.state = .opened)
    (hn : n ≤ 64) (hc : s.pk.total.toNat + n ≤ 2 ^ 64 - 1) : (writeField v n s).pk.Inv := by
  obtain ⟨hpos, hcur, hle, hem, -, -⟩ := h
  have hpos : s.pk.pos < 64 := hpos
  have htot : (s.pk.total + BitVec.ofNat 64 n).toNat = s.pk.total.toNat + n := by
    rw [add_total, BitVec.toNat_ofNat]; exact Nat.mod_eq_of_lt (by omega)
  have hall : s.pk.cur.toNat + v.toNat % 2 ^ n * 2 ^ s.pk.pos < 2 ^ (s.pk.pos + n) := by
    have hm : v.toNat % 2 ^ n + 1 ≤ 2 ^ n := Nat.mod_lt _ (by positivity)
    have := Nat.mul_le_mul_right (2 ^ s.pk.pos) hm
    rw [pow_add, mul_comm (2 ^ s.pk.pos)]; linarith
  rw [writeField_eq v n s hpos hcur]
  dsimp only
  split
  · refine ⟨by assumption, ?_, by simp only [htot]; omega, ?_, by simp [ho], by simp [ho]⟩
    · exact lt_of_le_of_lt (toNat_ofNat_le _) hall
    · intro he; simp only [htot, hem he]
  · refine ⟨by simp only [W]; omega, ?_, by simp only [htot]; omega, by simp, by simp [ho], by simp [ho]⟩
    refine lt_of_le_of_lt (toNat_ofNat_le _) ?_
    dsimp only
    rw [Nat.div_lt_iff_lt_mul (by positivity), ← pow_add]
    rwa [show s.pk.pos + n - 64 + 64 = s.pk.pos + n by omega]

/-- A packer that has just emitted its accumulator is legal in any life-cycle state but `IDLE`. -/
theorem packerInv_emitted {p : Packer} (hp : p.pos = 0) (hc : p.cur = 0) (he : p.emitted = true)
    (hs : p.state ≠ .idle) : p.Inv := by
  simp [Packer.Inv, hp, hc, he, hs]

/-- A flush keeps R27 (R124). -/
theorem flushPartial_inv {s : State} (h : s.pk.Inv) (ho : s.pk.state = .opened) :
    (flushPartial s).pk.Inv := by
  unfold flushPartial
  split
  · exact packerInv_emitted rfl rfl rfl (by simp [ho])
  · exact h

theorem flushPartial_pos (s : State) : (flushPartial s).pk.pos = 0 := by
  unfold flushPartial
  split
  · rfl
  · omega

/-- Finalization leaves a legal packer at position 0, still in its life-cycle state (R126). -/
theorem finalize_inv {s : State} (h : s.pk.Inv) (ho : s.pk.state = .opened) :
    (finalize s).pk.Inv ∧ (finalize s).pk.pos = 0 := by
  obtain ⟨hpos, hcur, -⟩ := id h
  rcases finalize_cases s hpos hcur with ⟨-, h0, e⟩ | ⟨-, -, e⟩ | ⟨-, e⟩ | ⟨-, -, e⟩ <;> rw [e]
  · exact ⟨h, h0⟩
  all_goals exact ⟨packerInv_emitted rfl rfl rfl (by simp [ho]), rfl⟩

/-- A legal packer at position 0 may be closed. -/
theorem packerInv_close {p : Packer} (h : p.Inv) (h0 : p.pos = 0) :
    Packer.Inv { p with state := .closed } := by
  obtain ⟨hpos, hcur, hle, hem, -, -⟩ := h
  exact ⟨hpos, hcur, hle, hem, fun _ => h0, fun h => by cases h⟩

/-- The close keeps R27 (R126). -/
theorem closePacker_inv {s : State} (h : s.pk.Inv) (ho : s.pk.state = .opened) :
    (closePacker s).pk.Inv := by
  unfold closePacker
  split
  · obtain ⟨hf, h0⟩ := finalize_inv h ho
    exact packerInv_close hf h0
  · exact packerInv_close (flushPartial_inv h ho) (flushPartial_pos s)

/-! ### The unpacker -/

/-- An open unpacker whose current word still has a bit to give: what a read has after its checks and its
lazy advance (R163, R164). -/
structure Readable (s : State) : Prop where
  inv : s.UnpackerInv
  opened : s.up.state = .opened
  inWord : s.up.pos < 64
  notAtEnd : s.up.mode = .sized → s.up.final = true → s.up.pos < s.up.valid

theorem unpackerInv_sized {s : State} (ho : s.up.state = .opened) (hm : s.up.mode = .sized)
    (hr : s.up.final = false → s.ReadingInv) (hf : s.up.final = true → s.FinalInv) :
    s.UnpackerInv := by
  refine ⟨?_, fun _ _ => hr, fun _ _ => hf, ?_⟩
  · intro h; rw [ho] at h; cases h
  · intro _ h; rw [hm] at h; cases h

theorem unpackerInv_unsized {s : State} (ho : s.up.state = .opened) (hm : s.up.mode = .unsized)
    (hu : s.UnsizedInv) : s.UnpackerInv := by
  refine ⟨?_, ?_, ?_, fun _ _ => hu⟩
  · intro h; rw [ho] at h; cases h
  all_goals intro _ h; rw [hm] at h; cases h

/-- The final word has at most 64 valid bits (R34). -/
theorem finalInv_valid_le {s : State} (h : s.FinalInv) : s.up.valid ≤ 64 := by
  obtain ⟨-, -, -, ⟨hv, -, -⟩ | ⟨-, -, hv⟩ | ⟨-, -, hv, -⟩⟩ := h
  · omega
  · rw [hv]; exact decodeMarker_le _
  · rw [hv]; exact decodeMarker_le _

/-- A final word found by an advance has a valid bit (R162: the count comes from a marker). -/
theorem advanceSized_valid_pos {s t : State} (h : advanceSized s = .ok t) (hs : s.up.final = false)
    (ht : t.up.final = true) : 0 < t.up.valid := by
  rcases advanceSized_cases s with ⟨-, e⟩ | ⟨-, -, e⟩ | ⟨-, m, -, -, e⟩ | ⟨-, m, -, -, e⟩ |
    ⟨-, m, x, rest, -, e⟩ <;> rw [e] at h <;> cases h
  · exact decodeMarker_pos _
  · exact decodeMarker_pos _
  all_goals simp [hs] at ht

/-- The advance of a legal open unpacker not on its final word (R162 with R38): it never stops, and leaves
the unpacker at the start of a word that can be read. -/
theorem advance_keeps {s : State} (hu : s.UnpackerInv) (ho : s.up.state = .opened)
    (hnf : s.up.mode = .sized → s.up.final = false) :
    Keeps (fun t => Readable t ∧ t.up.pos = 0) (advance s) := by
  obtain ⟨-, hread, -, huns⟩ := hu
  cases hm : s.up.mode
  · have hf := hnf hm
    obtain ⟨t, e, -, htm, hto, htp, htr, htf, -⟩ := advance_reading hm hf (hread ho hm hf)
    have hvalid : t.up.final = true → 0 < t.up.valid :=
      advanceSized_valid_pos (by simpa only [advance, hm] using e) hf
    rw [e]
    exact ⟨⟨unpackerInv_sized (hto.trans ho) htm htr htf, hto.trans ho, by omega,
      fun _ h => by rw [htp]; exact hvalid h⟩, htp⟩
  · obtain ⟨-, e⟩ | ⟨t, e, -, htm, hto, htp, hti, -⟩ := advance_unsized hm (huns ho hm) <;> rw [e]
    · trivial
    · exact ⟨⟨unpackerInv_unsized (hto.trans ho) htm hti, hto.trans ho, by omega,
        fun h => by rw [htm] at h; cases h⟩, htp⟩

/-- Moving the position inside the current word, not past the valid bits, keeps R38. -/
theorem Readable.setPos {s : State} (h : Readable s) {p : Nat} (hp : p ≤ 64)
    (hv : s.up.mode = .sized → s.up.final = true → p ≤ s.up.valid) :
    (s.setUp { s.up with pos := p }).UnpackerInv := by
  obtain ⟨⟨-, hread, hfin, huns⟩, ho, hlt, -⟩ := h
  cases hm : s.up.mode
  · refine unpackerInv_sized ho hm (fun hf => ?_) (fun hf => ?_)
    · obtain ⟨-, hrest⟩ := hread ho hm hf
      exact ⟨hp, hrest⟩
    · obtain ⟨-, hrest⟩ := hfin ho hm hf
      exact ⟨hv hm hf, hrest⟩
  · obtain ⟨-, hf, hd, hvalid, hn, hcur⟩ := huns ho hm
    exact unpackerInv_unsized ho hm ⟨hp, hf, hd, hvalid, hn, fun _ => hcur hlt⟩

/-- The check of `UP_READ_AT_EOF` passes: a final word has a valid bit left (R166). -/
theorem pos_lt_valid_of_not_sizedEof {u : Unpacker} (h : u.sizedEof = false) (hm : u.mode = .sized)
    (hf : u.final = true) : u.pos < u.valid := by
  by_contra hle
  rw [sizedEof_eq_true.mpr ⟨hm, hf, by omega⟩] at h
  cases h

/-- After the checks of a bit read, its lazy advance leaves a readable word (R163). -/
theorem lazyAdvance_keeps {s : State} (hu : s.UnpackerInv) (ho : s.up.state = .opened)
    (he : s.up.sizedEof = false) : Keeps Readable (lazyAdvance s) := by
  unfold lazyAdvance
  split
  · rename_i hW
    have hnf : s.up.mode = .sized → s.up.final = false := by
      intro hm
      by_contra hf
      have hf : s.up.final = true := by simpa using hf
      obtain ⟨-, -, hfin, -⟩ := hu
      have hlt := pos_lt_valid_of_not_sizedEof he hm hf
      have hle := finalInv_valid_le (hfin ho hm hf)
      simp only [W] at hW
      omega
    exact keeps_mono (advance_keeps hu ho hnf) fun t _ ht => ht.1
  · rename_i hW
    exact ⟨hu, ho, Nat.lt_of_not_le hW, pos_lt_valid_of_not_sizedEof he⟩

/-- The read of one bit keeps R38 (R163). -/
theorem readBit_keeps {s : State} (hu : s.UnpackerInv) (ho : s.up.state = .opened)
    (he : s.up.sizedEof = false) : Keeps (fun p => p.1.UnpackerInv) (readBit s) := by
  unfold readBit
  obtain ⟨t, e, ht⟩ | ⟨c, e⟩ := (lazyAdvance_keeps hu ho he).cases <;> rw [e]
  · exact ht.setPos ht.inWord ht.notAtEnd
  · trivial

/-- The advance of a field read raises the truncation where there is no next word (R164 (i)). -/
theorem fieldAdvance_keeps {s : State} (hu : s.UnpackerInv) (ho : s.up.state = .opened) :
    Keeps (fun t => Readable t ∧ t.up.pos = 0) (fieldAdvance s) := by
  unfold fieldAdvance
  split
  · trivial
  · rename_i h
    exact advance_keeps hu ho fun hm => by simpa [hm] using h

/-- The end of a field read keeps R38: a position past the valid bits is a truncation (R164 (ii)). -/
theorem finishField_keeps {s : State} (h : Readable s) {p : Nat} (hp : p ≤ 64) (d : Word) :
    Keeps (fun p => p.1.UnpackerInv) (finishField (s.setUp { s.up with pos := p }) d) := by
  obtain ⟨-, e⟩ | ⟨hov, e⟩ :=
    finishField_cases (s := s.setUp { s.up with pos := p }) (d := d) <;> rw [e]
  · trivial
  · refine h.setPos hp fun hm hf => ?_
    simpa [Unpacker.overrun, hm, hf] using hov

/-- The extraction of a field keeps R38 (R164). -/
theorem extractField_keeps {s : State} (h : Readable s) {n : Nat} (hn : n ≤ 64) :
    Keeps (fun p => p.1.UnpackerInv) (extractField n s) := by
  unfold extractField
  simp only [W]
  split
  · have := h.inWord
    exact finishField_keeps h (by omega) _
  · obtain ⟨t, e, ht, -⟩ | ⟨c, e⟩ := (fieldAdvance_keeps h.inv h.opened).cases <;> rw [e]
    · exact finishField_keeps ht (by omega) _
    · trivial

/-- The read of a field keeps R38 (R164). -/
theorem readField_keeps {s : State} (hu : s.UnpackerInv) (ho : s.up.state = .opened)
    (he : s.up.sizedEof = false) {n : Nat} (hn : n ≤ 64) :
    Keeps (fun p => p.1.UnpackerInv) (readField n s) := by
  have hlazy : Keeps Readable (fieldLazyAdvance s) := by
    unfold fieldLazyAdvance
    split
    · exact keeps_mono (fieldAdvance_keeps hu ho) fun t _ ht => ht.1
    · rename_i hW
      exact ⟨hu, ho, Nat.lt_of_not_le hW, pos_lt_valid_of_not_sizedEof he⟩
  unfold readField
  obtain ⟨t, e, ht⟩ | ⟨c, e⟩ := hlazy.cases <;> rw [e]
  · exact extractField_keeps ht hn
  · trivial

/-- The sized open reaches a legal unpacker (R161 with R38). -/
theorem openSized_keeps (s : State) : Keeps State.UnpackerInv (openSized s) := by
  obtain ⟨t, e, -, hm, ho, -, hr, hf, -⟩ := openSized_inv s
  rw [e]
  exact unpackerInv_sized ho hm hr hf

/-- The unsized open is legal: the word before its first is used up (R161, R38). -/
theorem openUnsized_inv (s : State) : (s.setUp (openedUnpacker .unsized 64)).UnpackerInv :=
  unpackerInv_unsized rfl rfl ⟨le_refl _, rfl, rfl, rfl, rfl, fun h => absurd h (lt_irrefl 64)⟩

/-! ### Commands -/

/-- What a command that ran to its end leaves, with its one response delivered (R98). -/
structure Answered (s t : State) : Prop where
  packer : t.pk.Inv
  unpacker : t.UnpackerInv
  streams : t.StreamsInv
  faults : t.FaultInv
  program : t.program = s.program
  index : t.index = s.index
  responses : t.responses.length = s.responses.length + 1

theorem answered_of_kept {s u : State} (hi : s.Inv) (h : Kept s u) (st : Status) (d : Word) :
    Answered s (u.respond st d) := by
  obtain ⟨-, -, -, hfault, -⟩ := hi
  have hres : u.responses = s.responses := by rw [h.frame]
  refine ⟨h.packer, h.unpacker, h.streams, ?_, by rw [h.frame]; rfl, by rw [h.frame]; rfl, by simp [hres]⟩
  have hf : u.fault = s.fault := by rw [h.frame]
  have hc : u.fcode = s.fcode := by rw [h.frame]
  simpa only [State.FaultInv, State.respond_fault, State.respond_fcode, hf, hc] using hfault

theorem answered_refuse {s : State} (hi : s.Inv) : Answered s (refuse s) :=
  answered_of_kept hi (Kept.refl hi) _ _

/-- Fault entry keeps the invariants: a code of R201, and nothing else of the block (R204). -/
theorem answered_takeFault {s : State} (hi : s.Inv) (c : FaultCode) : Answered s (takeFault c s) := by
  obtain ⟨hpk, hup, hst, -, -⟩ := hi
  exact ⟨hpk, hup, hst, faultCode_range c, rfl, rfl, by simp⟩

/-- A command whose rule keeps the invariants has a next state, with them and one response more. -/
theorem command_answers {s : State} {rule : State → Result} (hi : s.Inv) (h : KeepsInv s (rule s)) :
    ∃ t, command s rule = .next t ∧ Answered s t := by
  rcases command_cases (s := s) (rule := rule) rfl with ⟨-, e⟩ | ⟨-, u, r, hr, e⟩ | ⟨-, c, -, e⟩ |
    ⟨-, f, hr, -⟩
  · exact ⟨_, e, answered_refuse hi⟩
  · rw [hr] at h
    exact ⟨_, e, answered_of_kept hi h _ _⟩
  · exact ⟨_, e, answered_takeFault hi c⟩
  · rw [hr] at h
    exact h.elim

theorem opened_of_check {p : Packer} (h : (!p.isOpen) = false) : p.state = .opened :=
  isOpen_packer.mp (by simpa using h)

theorem unpacker_opened_of_check {u : Unpacker} (h : (!u.isOpen) = false) : u.state = .opened := by
  simpa [Unpacker.isOpen] using h

/-- `PK_OPEN` starts a legal packer (R121). -/
theorem packerInv_opened (nofin : Bool) :
    Packer.Inv { cur := 0, pos := 0, total := 0, emitted := false, finEn := !nofin,
                 state := .opened } := by
  simp [Packer.Inv]

/-- Popping bytes keeps the invariants: the cursor stays within `BIN` (R191, R40). -/
theorem kept_popBytes {s : State} (hi : s.Inv) (fuel k : Nat) (acc : Word) :
    Kept s (popBytes fuel acc k s).2.2 := by
  obtain ⟨hpk, hup, ⟨hwin, hbin⟩, -, -⟩ := hi
  rw [popBytes_eq]
  refine ⟨hpk, hup, ⟨hwin, ?_⟩, rfl⟩
  simp only [List.length_take, List.length_drop]
  omega

/-- Pushing bytes changes `BOUT` alone (R192). -/
theorem kept_pushBytes {s : State} (hi : s.Inv) (bs : List Byte) : Kept s (pushBytes bs s) := by
  obtain ⟨hpk, hup, hst, -, -⟩ := hi
  rw [pushBytes_eq]
  exact ⟨hpk, hup, hst, rfl⟩

/-- Every command has a next state from a legal one, with the invariants and one response more. -/
theorem exec_answers {s : State} (hi : s.Inv) (i : Instr) :
    ∃ t, exec i s = .next t ∧ Answered s t := by
  have hself : ∀ d, KeepsInv s (reply s d) := fun d => keepsInv_reply (Kept.refl hi)
  obtain ⟨hpk, hup, -⟩ := id hi
  cases i with
  | pkOpen nofin =>
    simp only [exec, execPkOpen]
    exact command_answers hi <| keeps_check fun _ => keepsInv_reply <|
      .of_packerFrame (n := 0) hi ⟨rfl, [], by simp, by simp⟩ (packerInv_opened nofin)
  | pkWbit b =>
    simp only [exec, execPkWbit]
    exact command_answers hi <| keeps_check fun ho => keeps_check fun hc => keepsInv_reply <|
      .of_packerFrame hi (writeBit_frame b s)
        (writeBit_inv hpk (opened_of_check ho) (wouldOverflow_eq_false.mp hc))
  | pkWfld v c =>
    simp only [exec, execPkWfld]
    exact command_answers hi <| keeps_check fun ho => keeps_check fun hn => keeps_check fun hc =>
      keepsInv_reply <| .of_packerFrame hi (writeField_frame _ _ s)
        (writeField_inv hpk (opened_of_check ho) (badCount_eq_false.mp hn).2
          (wouldOverflow_eq_false.mp hc))
  | pkFlush =>
    simp only [exec, execPkFlush]
    exact command_answers hi <| keeps_check fun ho => keepsInv_reply <|
      .of_packerFrame hi (flushPartial_frame s) (flushPartial_inv hpk (opened_of_check ho))
  | pkClose =>
    simp only [exec, execPkClose]
    exact command_answers hi <| keeps_check fun ho => keepsInv_reply <|
      .of_packerFrame hi (closePacker_frame s) (closePacker_inv hpk (opened_of_check ho))
  | pkNbits =>
    simp only [exec, execPkNbits]
    exact command_answers hi <| keeps_check fun _ => hself _
  | pkPos =>
    simp only [exec, execPkPos]
    exact command_answers hi <| keeps_check fun _ => hself _
  | upOpen unsized =>
    simp only [exec, execUpOpen]
    refine command_answers hi ?_
    cases unsized with
    | true =>
      exact keepsInv_reply <|
        .of_unpackerFrame hi ((UnpackerFrame.refl s).setUp _) (openUnsized_inv s)
    | false =>
      obtain ⟨t, e, ht⟩ | ⟨c, e⟩ := (openSized_keeps s).cases <;>
        simp only [Bool.false_eq_true, if_false, e]
      · exact keepsInv_reply <| .of_unpackerFrame hi (openSized_frame e) ht
      · trivial
  | upRbit =>
    simp only [exec, execUpRbit]
    exact command_answers hi <| keeps_check fun ho => keeps_check fun he =>
      keeps_mono (readBit_keeps hup (unpacker_opened_of_check ho) he) fun p e hp =>
        Kept.of_unpackerFrame hi (readBit_frame e).1 hp
  | upRfld c =>
    simp only [exec, execUpRfld]
    exact command_answers hi <| keeps_check fun ho => keeps_check fun hn => keeps_check fun he =>
      keeps_mono (readField_keeps hup (unpacker_opened_of_check ho) he (badCount_eq_false.mp hn).2)
        fun p e hp => Kept.of_unpackerFrame hi (readField_frame e).1 hp
  | upGood =>
    simp only [exec, execUpGood]
    exact command_answers hi <| keeps_check fun _ => hself _
  | upEof =>
    simp only [exec, execUpEof]
    exact command_answers hi <| keeps_check fun _ => hself _
  | upPos =>
    simp only [exec, execUpPos]
    exact command_answers hi <| keeps_check fun _ => hself _
  | mkEnc n =>
    simp only [exec, execMkEnc]
    exact command_answers hi <| keeps_check fun _ => hself _
  | mkDec w =>
    simp only [exec, execMkDec]
    exact command_answers hi <| hself _
  | bwPack =>
    simp only [exec, execBwPack]
    refine command_answers hi ?_
    have hk := kept_popBytes hi bytesPerWord 0 0
    split
    · exact keepsInv_reply hk
    · exact hk
  | bwUnpack w =>
    simp only [exec, execBwUnpack]
    exact command_answers hi <| keepsInv_reply <| kept_pushBytes hi _

/-- Every command word does, known or not (R98, R103). -/
theorem runWord_answers {s : State} (hi : s.Inv) (w : CmdWord) :
    ∃ t, runWord w s = .next t ∧ Answered s t := by
  unfold runWord
  split
  · exact exec_answers hi _
  · exact command_answers hi trivial

/-! ### Steps -/

/-- The commands up to and with the event at the index. -/
theorem commandCount_take_succ {es : List HostEvent} {k : Nat} {e : HostEvent} (h : es[k]? = some e) :
    commandCount (es.take (k + 1)) = commandCount (es.take k) + commandCount [e] := by
  rw [List.take_add_one, h, commandCount, List.countP_append]
  rfl

/-- The host's side after an event: the index has moved past it, and a command has been answered (R45,
R98). -/
theorem hostInv_next {s t : State} {e : HostEvent} (h : s.HostInv) (he : s.program[s.index]? = some e)
    (hp : t.program = s.program) (hx : t.index = s.index + 1)
    (hr : t.responses.length = s.responses.length + commandCount [e]) : t.HostInv := by
  obtain ⟨-, hresp⟩ := h
  obtain ⟨hlt, -⟩ := List.getElem?_eq_some_iff.mp he
  refine ⟨by rw [hp, hx]; exact hlt, ?_⟩
  rw [hr, hp, hx, commandCount_take_succ he, hresp]

theorem Answered.tick_inv {s t : State} {w : CmdWord} (hi : s.Inv)
    (hw : s.program[s.index]? = some (.command w)) (h : Answered s t) : t.tick.Inv := by
  obtain ⟨-, -, -, -, hhost⟩ := hi
  exact ⟨h.packer, h.unpacker, h.streams, h.faults,
    hostInv_next hhost hw h.program (congrArg (· + 1) h.index) h.responses⟩

/-- A state whose units, cursors and fault elements are as R48 has them is legal if its host's side is. -/
theorem inv_of_reset {s : State} (hpk : s.pk = Packer.reset) (hup : s.up = Unpacker.reset)
    (hwin : s.winRd = 0) (hbin : s.binRd = 0) (hf : s.fault = false) (hc : s.fcode = 0)
    (hhost : s.HostInv) : s.Inv := by
  refine ⟨by rw [hpk]; decide, ⟨fun _ => hup, ?_, ?_, ?_⟩, ⟨by omega, by omega⟩, ?_, hhost⟩
  · intro h; rw [hup] at h; cases h
  · intro h; rw [hup] at h; cases h
  · intro h; rw [hup] at h; cases h
  · simp [State.FaultInv, hf, hc]

/-- A reset leads to a legal state (R230, R48). -/
theorem applyReset_tick_inv {s : State} (h : s.HostInv) (he : s.program[s.index]? = some .reset) :
    s.applyReset.tick.Inv :=
  inv_of_reset rfl rfl rfl rfl rfl rfl (hostInv_next h he rfl rfl rfl)

/-- From a legal state a step has a next state, and it is legal. -/
theorem step_inv {s : State} (hi : s.Inv) : ∃ t, step s = .next t ∧ t.Inv := by
  obtain ⟨-, -, -, -, hhost⟩ := id hi
  unfold step
  split
  · exact ⟨s, rfl, hi⟩
  · rename_i hp
    exact ⟨_, rfl, applyReset_tick_inv hhost hp⟩
  · rename_i w hp
    obtain ⟨t, e, ht⟩ := runWord_answers hi w
    exact ⟨t.tick, by rw [e], ht.tick_inv hi hp⟩

/-! ### The statements -/

/-- Settles O56: a step from a legal state has one outcome, and that is a legal next state. -/
theorem everyStepKeepsTheInvariants : Obligations.EveryStepKeepsTheInvariants := by
  intro s t hi ht
  obtain ⟨t', ht', hinv⟩ := step_inv hi
  rw [ht'] at ht
  cases ht
  exact hinv

/-- Settles O57, by the progress half of `step_inv`. -/
theorem legalStatesNeverStop : Obligations.LegalStatesNeverStop := by
  intro s hi
  obtain ⟨t, ht, -⟩ := step_inv hi
  exact ⟨t, ht⟩

/-- Settles O1, by evaluation of the one reset state against the table of R48. -/
theorem resetLeavesEveryElementAtItsValue : Obligations.ResetLeavesEveryElementAtItsValue := by
  unfold Obligations.ResetLeavesEveryElementAtItsValue
  decide

/-- Settles O55: both states are as R48 has them, and no event has been taken. -/
theorem legalAtReset : Obligations.LegalAtReset :=
  ⟨inv_of_reset rfl rfl rfl rfl rfl rfl ⟨le_refl _, rfl⟩,
    fun _ _ _ => inv_of_reset rfl rfl rfl rfl rfl rfl ⟨Nat.zero_le _, rfl⟩⟩

end Sys2Proof.Machine
end

section
/-! PROOFS. The streams (spec 20_memory.md): where a bit of the stream lies in the words (R64) and in the
byte form of its word (R65, R67), and that a step only appends to the sinks and only moves the cursors
forward (R60, R71, R76). -/

namespace Sys2Proof.Machine

open Config

/-! ### Where a stream bit lies -/

/-- Word `j` of a stream is made of its bits `64 j .. 64 j + 63` (R64). -/
theorem fullWords_getElem? {bits : List Bool} {j : Nat} (h : j < bits.length / 64) :
    (fullWords bits)[j]? = some (wordOfBits ((bits.drop (64 * j)).take 64)) := by
  simp [fullWords, h]

theorem wordBytes_getElem? (w : Word) {k : Nat} (h : k < 8) :
    (wordBytes w)[k]? = some (byteOfWord w k) := by
  simp [wordBytes, h]

/-- Byte `k`, counted from the most significant, starts at bit `56 - 8 k` of its word (R65). -/
theorem byteOfWord_getLsbD (w : Word) (k : Nat) {j : Nat} (h : j < 8) :
    (byteOfWord w k).getLsbD j = w.getLsbD (56 - 8 * k + j) := by
  simp [byteOfWord, h]

/-! ### Streams that move forward -/

/-- From `s` to `t` the sinks have grown at their ends, no cursor has moved back, and the inputs and the
host's list are the same. -/
def MovesForward (s t : State) : Prop :=
  s.wout <+: t.wout ∧ s.bout <+: t.bout ∧ s.winRd ≤ t.winRd ∧ s.binRd ≤ t.binRd ∧
  t.win = s.win ∧ t.bin = s.bin ∧ t.program = s.program

@[simp] theorem MovesForward.refl (s : State) : MovesForward s s :=
  ⟨List.prefix_rfl, List.prefix_rfl, le_rfl, le_rfl, rfl, rfl, rfl⟩

/-! A response, a fault entry, a refusal and the host's index touch no stream (R98, R204, R205, R45). -/

@[simp] theorem movesForward_respond {s t : State} {st : Status} {d : Word} :
    MovesForward s (t.respond st d) ↔ MovesForward s t := Iff.rfl

@[simp] theorem movesForward_takeFault {s t : State} {c : FaultCode} :
    MovesForward s (takeFault c t) ↔ MovesForward s t := Iff.rfl

@[simp] theorem movesForward_refuse {s t : State} :
    MovesForward s (refuse t) ↔ MovesForward s t := Iff.rfl

@[simp] theorem movesForward_tick {s t : State} :
    MovesForward s t.tick ↔ MovesForward s t := Iff.rfl

/-- The packer's operations append to `WOUT`. -/
theorem PackerFrame.movesForward {n : Nat} {s t : State} (h : PackerFrame n s t) :
    MovesForward s t := by
  obtain ⟨he, ws, hw, -⟩ := h
  rw [he]
  exact ⟨⟨ws, hw.symm⟩, List.prefix_rfl, le_rfl, le_rfl, rfl, rfl, rfl⟩

/-- The unpacker's operations move `WIN.rd` forward. -/
theorem UnpackerFrame.movesForward {n : Nat} {s t : State} (h : UnpackerFrame n s t) :
    MovesForward s t := by
  obtain ⟨he, hrd, -⟩ := h
  rw [he]
  exact ⟨List.prefix_rfl, List.prefix_rfl, hrd, le_rfl, rfl, rfl, rfl⟩

/-- A completed command moves the one stream of its unit, if any: the packer's `WOUT`, the unpacker's
`WIN.rd`, the converter's `BIN.rd` or `BOUT` (R226). -/
theorem Completed.movesForward {i : Instr} {s u : State} {r : Reply} (h : Completed i s u r) :
    MovesForward s u := by
  cases i with
  | pkOpen | pkWbit | pkWfld | pkFlush | pkClose =>
    obtain ⟨hframe, -⟩ := h
    exact hframe.movesForward
  | upOpen | upRbit | upRfld =>
    obtain ⟨hframe, -⟩ := h
    exact hframe.movesForward
  | pkNbits | pkPos | upGood | upEof | upPos | mkEnc | mkDec =>
    obtain ⟨rfl, -⟩ := h
    exact .refl _
  | bwPack =>
    obtain ⟨he, hrd, -⟩ := h
    rw [he]
    exact ⟨List.prefix_rfl, List.prefix_rfl, le_rfl, hrd, rfl, rfl, rfl⟩
  | bwUnpack word =>
    obtain ⟨rfl, -⟩ := h
    exact ⟨List.prefix_rfl, List.prefix_append _ _, le_rfl, le_rfl, rfl, rfl, rfl⟩

/-- So does every command with a next state: a refusal and a fault move nothing. -/
theorem exec_movesForward {i : Instr} {s t : State} (h : exec i s = .next t) : MovesForward s t := by
  rcases exec_cases h with ⟨-, rfl⟩ | ⟨-, u, r, hu, rfl⟩ | ⟨-, c, rfl⟩
  · simp
  · simpa using hu.movesForward
  · simp

/-! ### The statements -/

/-- Settles O54, by the cases of a step; the reset, which empties the sinks, is excluded. -/
theorem streamsOnlyMoveForward : Obligations.StreamsOnlyMoveForward := by
  intro s t hstep hreset
  change MovesForward s t
  rcases step_cases hstep with ⟨-, rfl⟩ | ⟨hp, -⟩ | ⟨w, i, u, -, -, hu, rfl⟩ |
    ⟨w, e, -, -, ⟨-, rfl⟩ | ⟨-, rfl⟩⟩
  · exact .refl t
  · exact absurd hp hreset
  · simpa using exec_movesForward hu
  · simp
  · simp

/-- Settles O25: bit `t` is the bit `t mod 64` of the piece of the stream that word `t / 64` is made of. -/
theorem fullWordsHoldTheBitsInOrder : Obligations.FullWordsHoldTheBitsInOrder := by
  intro bits t ht
  have hlen : ((bits.drop (64 * (t / 64))).take 64).length = 64 := by
    rw [List.length_take, List.length_drop]
    omega
  rw [fullWords_getElem? (by omega), Option.map_some,
    wordOfBits_getLsbD _ _ (by omega) (by omega), ← List.getElem?_eq_getElem,
    List.getElem?_take_of_lt (by omega), List.getElem?_drop, Nat.div_add_mod]

/-- Settles O28: byte `7 - p / 8` starts at bit `8 (p / 8)`, and `p` is `p mod 8` above that. -/
theorem mixedWidthView : Obligations.MixedWidthView := by
  intro w p hp
  have hbit : 56 - 8 * (7 - p / 8) + p % 8 = p := by omega
  rw [wordBytes_getElem? w (by omega), Option.map_some, byteOfWord_getLsbD w _ (by omega), hbit]

end Sys2Proof.Machine
end

section
/-! PROOFS. The command words (spec 30_encoding.md R98, R100 to R104): which words decode to a command, and
which of their bits they decode by; that a step runs the decoded command and gives one response. -/

namespace Sys2Proof

open Machine

/-! ### Operands under their masks -/

@[simp] theorem argOfBool_inj {a b : Bool} : argOfBool a = argOfBool b ↔ a = b := by
  revert a b; decide

@[simp] theorem valueOfBool_inj {a b : Bool} : valueOfBool a = valueOfBool b ↔ a = b := by
  revert a b; decide

/-- A one-bit operand is bit 0 of its `arg` field (R102 (d), (e)). -/
theorem arg_and_one (a : Byte) : a &&& 1#8 = argOfBool (a.getLsbD 0) := by
  rw [BitVec.and_one_eq_setWidth_ofBool_getLsbD]
  cases a.getLsbD 0 <;> rfl

/-- The bit of `PK_WBIT` is bit 0 of its `value` field (R102 (c)). -/
theorem value_and_one (v : Word) : v &&& 1#64 = valueOfBool (v.getLsbD 0) := by
  rw [BitVec.and_one_eq_setWidth_ofBool_getLsbD]
  cases v.getLsbD 0 <;> rfl

theorem arg_and_ones (a : Byte) : a &&& 0xFF#8 = a := BitVec.and_allOnes

theorem value_and_ones (v : Word) : v &&& 0xFFFFFFFFFFFFFFFF#64 = v := BitVec.and_allOnes

/-! ### Command words as their fields -/

theorem cmdWord_inj {v v' : Word} {a a' o o' : Byte} :
    cmdWord v a o = cmdWord v' a' o' ↔ v = v' ∧ a = a' ∧ o = o' := by
  refine ⟨fun h => ⟨?_, ?_, ?_⟩, fun ⟨hv, ha, ho⟩ => by rw [hv, ha, ho]⟩
  · simpa only [valueField_cmdWord] using congrArg valueField h
  · simpa only [argField_cmdWord] using congrArg argField h
  · simpa only [opField_cmdWord] using congrArg opField h

/-- Masking a command word masks its fields. -/
theorem and_eq_cmdWord (w m : CmdWord) :
    w &&& m = cmdWord (valueField w &&& valueField m) (argField w &&& argField m)
      (opField w &&& opField m) := by
  rw [← and_cmdWord, cmdWord_fields, cmdWord_fields]

/-- Every command uses the whole opcode byte (R103 (b)). -/
theorem opField_usedBits (i : Instr) : opField i.usedBits = BitVec.allOnes 8 := by
  cases i <;> exact opField_cmdWord _ _ _

/-- To encode `i` in the bits that `i` uses is to hold its opcode and its operands in them. -/
theorem encode_eq_and_usedBits_iff {i : Instr} {w : CmdWord} :
    encode i = w &&& i.usedBits ↔
      i.value = valueField w &&& valueField i.usedBits ∧
      i.arg = argField w &&& argField i.usedBits ∧ i.opcode = opField w := by
  rw [encode, and_eq_cmdWord, cmdWord_inj, opField_usedBits, BitVec.and_allOnes]

/-! ### What the decoder accepts -/

/-- The opcode of a decoded word is the command's (R101). -/
theorem opField_of_decode {w : CmdWord} {i : Instr} (h : decode w = .ok i) :
    i.opcode = opField w := by
  unfold decode at h
  split at h <;> cases h <;> exact BitVec.eq_of_toNat_eq (Eq.symm ‹_›)

/-- A word is rejected only if its opcode is not in the map (R103 (a)). -/
theorem opField_notMem_of_decode_error {w : CmdWord} {e : DecodeError} (h : decode w = .error e) :
    (opField w).toNat ∉ opcodes := by
  unfold decode at h
  split at h <;> cases h
  simp_all [opcodes]

theorem opcode_mem_opcodes (i : Instr) : i.opcode.toNat ∈ opcodes := by
  cases i <;> simp [Instr.opcode, opcodes]

/-- A word decodes to a command exactly if it is that command's encoding in the bits the command uses
(R101 to R103): below the opcode, the commands differ only in which of these bits they have. -/
theorem decode_eq_ok_iff {w : CmdWord} {i : Instr} :
    decode w = .ok i ↔ encode i = w &&& i.usedBits := by
  rw [encode_eq_and_usedBits_iff]
  by_cases hop : i.opcode = opField w
  · cases i with
    | pkFlush | pkClose | pkNbits | pkPos | upRbit | upGood | upEof | upPos | bwPack =>
      simp [decode, ← hop, Instr.opcode, Instr.arg, Instr.value, Instr.usedBits, valueField_cmdWord,
        argField_cmdWord]
    | pkOpen | pkWbit | upOpen =>
      simp [decode, ← hop, Instr.opcode, Instr.arg, Instr.value, Instr.usedBits, valueField_cmdWord,
        argField_cmdWord, arg_and_one, value_and_one, eq_comm]
    | pkWfld | upRfld | mkEnc | mkDec | bwUnpack =>
      simp [decode, ← hop, Instr.opcode, Instr.arg, Instr.value, Instr.usedBits, valueField_cmdWord,
        argField_cmdWord, arg_and_ones, value_and_ones, eq_comm]
  · exact ⟨fun h => absurd (opField_of_decode h) hop, fun ⟨_, _, h⟩ => absurd h hop⟩

/-- Decoding inverts encoding: the decoder reads back the opcode and the operands that the encoder put in
the three fields (R100 to R102). -/
theorem decode_encode (i : Instr) : decode (encode i) = .ok i := by
  obtain ⟨hop, harg, hvalue⟩ := Laws.EncodedFields.statement_of_fields i
  cases i with
  | pkOpen b | pkWbit b | upOpen b =>
    cases b <;> simp [decode, hop, harg, hvalue, Instr.opcode, Instr.arg, Instr.value, argOfBool,
      valueOfBool]
  | _ => simp [decode, hop, harg, hvalue, Instr.opcode, Instr.arg, Instr.value]

/-- A word decodes exactly if its low byte is an opcode of the map (R101, R103 (a)). -/
theorem exists_decode_eq_ok_iff (w : CmdWord) :
    (∃ i, decode w = .ok i) ↔ w.toNat % 256 ∈ opcodes := by
  rw [← opField_toNat]
  refine ⟨fun ⟨i, hi⟩ => ?_, fun hmem => ?_⟩
  · rw [← opField_of_decode hi]
    exact opcode_mem_opcodes i
  · cases hd : decode w with
    | ok i => exact ⟨i, rfl⟩
    | error e => exact absurd hmem (opField_notMem_of_decode_error hd)

namespace Machine

/-! ### Running a command word -/

theorem runWord_of_decode {w : CmdWord} {i : Instr} (s : State) (h : decode w = .ok i) :
    runWord w s = exec i s := by
  simp [runWord, h]

/-! ### Responses -/

/-- Before its response a completed command has touched neither the fault elements nor the responses
(R204, R226). -/
theorem Completed.fault_responses {i : Instr} {s u : State} {r : Reply} (h : Completed i s u r) :
    u.fault = s.fault ∧ u.responses = s.responses := by
  cases i with
  | pkOpen | pkWbit | pkWfld | pkFlush | pkClose | upOpen | upRbit | upRfld =>
    obtain ⟨⟨hframe, -⟩, -⟩ := h
    rw [hframe]
    exact ⟨rfl, rfl⟩
  | pkNbits | pkPos | upGood | upEof | upPos | mkEnc | mkDec | bwPack | bwUnpack =>
    obtain ⟨hframe, -⟩ := h
    rw [hframe]
    exact ⟨rfl, rfl⟩

/-- `OK` is the status of every completed command, but for a `BW_PACK` that finds too few bytes (R104,
R191). -/
theorem Completed.status {i : Instr} {s u : State} {r : Reply} (h : Completed i s u r) :
    r.status = .ok ∨ (i = .bwPack ∧ r.status = .exhausted ∧ r.data = 0) := by
  cases i with
  | bwPack =>
    obtain ⟨-, -, -, hok | ⟨hex, hdata⟩⟩ := h
    · exact .inl hok
    · exact .inr ⟨rfl, hex, hdata⟩
  | _ =>
    obtain ⟨-, hok⟩ := h
    exact .inl hok

/-! ### The statements -/

/-- Settles O7. The round trip from commands is `decode_encode`; the one from words is the characterization
of decoding by the used bits. -/
theorem decodeAndEncodeAgree : Obligations.DecodeAndEncodeAgree :=
  ⟨decode_encode, exists_decode_eq_ok_iff, fun _ _ h => decode_eq_ok_iff.mp h⟩

/-- Settles O8: decoding to a command is a condition on its used bits alone. -/
theorem ignoredBitsHaveNoEffect : Obligations.IgnoredBitsHaveNoEffect := by
  intro w w' i hw hagree
  rw [decode_eq_ok_iff] at hw ⊢
  rw [hw, hagree]

/-- Settles O52, by the three ways a command with a next state can end. -/
theorem oneResponsePerCommand : Obligations.OneResponsePerCommand := by
  intro i s t h
  rcases exec_cases h with ⟨hf, rfl⟩ | ⟨hf, u, r, hu, rfl⟩ | ⟨hf, c, rfl⟩
  · exact ⟨0xFF, _, refuse_responses s, by simp [hf]⟩
  · obtain ⟨hfault, hresp⟩ := hu.fault_responses
    refine ⟨r.status.byte, r.data, by rw [← hresp]; rfl, ?_⟩
    rw [hf] at hfault
    rcases hu.status with hok | ⟨hi, hex, hdata⟩
    · simp [hf, hfault, hok, Status.byte]
    · simp [hf, hfault, hi, hex, hdata, Status.byte]
  · exact ⟨0x80 + c.code, 0, takeFault_responses s c, by simp [hf]⟩

/-- Settles O4: the decoded word selects the command's rule, and `tick` is the move of the index. -/
theorem stepRunsTheDecodedCommand : Obligations.StepRunsTheDecodedCommand := by
  intro s w i hpending hdecode
  unfold step State.pending
  simp only [hpending, runWord_of_decode s hdecode]
  cases exec i s <;> rfl

/-- Settles O6, by evaluation of the decoder on the six words. -/
theorem wordsOfTheSpecDecode : Obligations.WordsOfTheSpecDecode := by
  unfold Obligations.WordsOfTheSpecDecode
  decide

end Machine
end Sys2Proof
end

section
/-! PROOFS. The words of a whole stream (spec 30_encoding.md R91 to R95; 40_eos_marker.md R116): how many there
are, and that sized reading finds the payload in them again. -/

namespace Sys2Proof.Machine

open Config

/-! ### Words of a stream -/

theorem unsizedBits_append (ws ws' : List Word) :
    unsizedBits (ws ++ ws') = unsizedBits ws ++ unsizedBits ws' := List.flatMap_append

/-- The full words and the tail hold the stream (R64). -/
theorem unsizedBits_fullWords_append_tailBits (bits : List Bool) :
    unsizedBits (fullWords bits) ++ tailBits bits = bits := by
  induction hq : bits.length / 64 generalizing bits with
  | zero =>
    have hlt : bits.length < 64 := by omega
    rw [fullWords_of_lt hlt, tailBits_of_lt hlt]
    rfl
  | succ q ih =>
    have hge : 64 ≤ bits.length := by omega
    have hfirst : fieldBits (wordOfBits (bits.take 64)) 64 = bits.take 64 := by
      have hlen : (bits.take 64).length = 64 := by rw [List.length_take]; omega
      have hbits := fieldBits_wordOfBits (bits.take 64) hlen.le
      rwa [hlen] at hbits
    have hrest := ih (bits.drop 64) (by rw [List.length_drop]; omega)
    rw [fullWords_cons hge, tailBits_drop hge, unsizedBits_cons, List.append_assoc, hrest, hfirst,
      List.take_append_drop]

/-- The four ways a finalized stream ends, by the length of its tail (R94): no words for no bits, a
marker-only word after a full word, the marker in the partial word, a marker-only word after that. -/
theorem finalizedWords_cases (bits : List Bool) :
    (bits = [] ∧ finalizedWords bits = []) ∨
    (bits ≠ [] ∧ bits.length % 64 = 0 ∧
      finalizedWords bits = fullWords bits ++ [encodeMarker 64]) ∨
    (0 < bits.length % 64 ∧ bits.length % 64 < 58 ∧ finalizedWords bits =
      fullWords bits ++ [wordOfBits (tailBits bits) ||| encodeMarker (bits.length % 64)]) ∨
    (58 ≤ bits.length % 64 ∧ finalizedWords bits =
      fullWords bits ++ [wordOfBits (tailBits bits), encodeMarker (bits.length % 64)]) := by
  unfold finalizedWords
  by_cases hnil : bits = []
  · exact .inl ⟨hnil, by simp [hnil]⟩
  have hlen : bits.length ≠ 0 := by simpa using hnil
  simp only [hlen, if_false, W, payloadBits]
  by_cases h0 : bits.length % 64 = 0
  · exact .inr (.inl ⟨hnil, h0, if_pos h0⟩)
  by_cases h58 : bits.length % 64 < 58
  · exact .inr (.inr (.inl ⟨by omega, h58, by rw [if_neg h0, if_pos h58]⟩))
  · exact .inr (.inr (.inr ⟨by omega, by rw [if_neg h0, if_neg h58]⟩))

/-! ### Reading words in sized mode -/

/-- The last word carries the marker and its own payload; all before it is payload (R93). -/
theorem sizedBits_append_below (ws : List Word) {m : Word} (h : decodeMarker m < 58) :
    sizedBits (ws ++ [m]) = unsizedBits ws ++ fieldBits m (decodeMarker m) := by
  induction ws with
  | nil => rfl
  | cons w ws ih =>
    rw [unsizedBits_cons, List.append_assoc, ← ih]
    cases ws with
    | nil => exact sizedBits_pair_below h
    | cons x xs => exact sizedBits_cons (by simp)

/-- A marker-only word gives the payload of the word before it (R93, R116). -/
theorem sizedBits_append_extra (ws : List Word) (w : Word) {m : Word} (h : 58 ≤ decodeMarker m) :
    sizedBits (ws ++ [w, m]) = unsizedBits ws ++ fieldBits w (decodeMarker m) := by
  induction ws with
  | nil => exact sizedBits_pair_extra h
  | cons x xs ih =>
    rw [unsizedBits_cons, List.append_assoc, ← ih]
    exact sizedBits_cons (by simp)

/-- A marker of 64 after full words leaves all their bits (R94, last case). -/
theorem sizedBits_append_full {ws : List Word} (hne : ws ≠ []) :
    sizedBits (ws ++ [encodeMarker 64]) = unsizedBits ws := by
  have hm : decodeMarker (encodeMarker 64) = 64 :=
    decodeMarker_encodeMarker 64 (by decide) (by decide)
  obtain ⟨init, last, rfl⟩ := (List.eq_nil_or_concat' ws).resolve_left hne
  rw [List.append_assoc, List.singleton_append, sizedBits_append_extra _ _ (by omega), hm,
    unsizedBits_append]
  rfl

/-- Reading a finalized stream gives back its payload, in each of the four cases of its end. -/
theorem sizedBits_finalizedWords (bits : List Bool) : sizedBits (finalizedWords bits) = bits := by
  have hall := unsizedBits_fullWords_append_tailBits bits
  have hlen := tailBits_length bits
  rcases finalizedWords_cases bits with ⟨rfl, hw⟩ | ⟨hne, h0, hw⟩ | ⟨hpos, h58, hw⟩ | ⟨h58, hw⟩ <;>
    rw [hw]
  · rfl
  · have htail : tailBits bits = [] := List.eq_nil_of_length_eq_zero (hlen.trans h0)
    have hfull : fullWords bits ≠ [] := by
      intro hnil
      rw [hnil, htail] at hall
      exact hne hall.symm
    rwa [sizedBits_append_full hfull, ← List.append_nil (unsizedBits _), ← htail]
  · have hm : decodeMarker (wordOfBits (tailBits bits) ||| encodeMarker (bits.length % 64)) =
        bits.length % 64 :=
      decodeMarker_or _ (bits.length % 64) _ (by omega)
        (by rw [wordOfBits_toNat _ (by omega), ← hlen]; exact natOfBits_lt _) hpos (by omega)
    rw [sizedBits_append_below _ (by omega), hm, ← hlen, fieldBits_or_marker _ _ (by omega), hall]
  · have hm := decodeMarker_encodeMarker (bits.length % 64) (by omega) (by omega)
    rw [sizedBits_append_extra _ _ (by omega), hm, ← hlen, fieldBits_wordOfBits _ (by omega), hall]

/-- The number of words of a finalized stream (R94). -/
theorem finalizedWords_length (bits : List Bool) :
    (finalizedWords bits).length =
      if bits.length = 0 then 0
      else if bits.length % 64 < 58 then bits.length / 64 + 1 else bits.length / 64 + 2 := by
  rcases finalizedWords_cases bits with ⟨rfl, hw⟩ | ⟨hne, h0, hw⟩ | ⟨hpos, h58, hw⟩ | ⟨h58, hw⟩
  · rfl
  · have hlen : bits.length ≠ 0 := by simpa using hne
    rw [hw, if_neg hlen, if_pos (by omega)]
    simp
  · rw [hw, if_neg (by omega), if_pos h58]
    simp
  · rw [hw, if_neg (by omega), if_neg (by omega)]
    simp

/-- The number of words of an unfinalized stream, the last one padded (R95). -/
theorem unfinalizedWords_length (bits : List Bool) :
    (unfinalizedWords bits).length = (bits.length + 63) / 64 := by
  by_cases h0 : bits.length % 64 = 0
  · rw [unfinalizedWords, if_pos h0, fullWords_length]
    omega
  · rw [unfinalizedWords, if_neg h0, List.length_append, fullWords_length, List.length_singleton]
    omega

/-! ### The statements -/

/-- Settles O27, by the four cases of the stream's end. -/
theorem sizedReadingInvertsFinalizing : Obligations.SizedReadingInvertsFinalizing :=
  sizedBits_finalizedWords

/-- Settles O26: the words are the full ones and those of the end. -/
theorem streamLengths : Obligations.StreamLengths := fun bits =>
  ⟨finalizedWords_length bits, unfinalizedWords_length bits⟩

end Sys2Proof.Machine
end

section
/-! PROOFS. The end-of-stream marker (spec 40_eos_marker.md R111 to R115): the laws of its encoding, and what
the two marker commands answer. -/

namespace Sys2Proof.Machine

/-! ### The encoding -/

/-- A payload below the marker field does not disturb the marker (R115 (b)). -/
theorem decodeMarker_encodeMarker_or {n : Nat} (h1 : 1 ≤ n) (hn : n ≤ 64) {p : Word}
    (hp : p.toNat < 2 ^ 57) : decodeMarker (encodeMarker n ||| p) = n := by
  rw [BitVec.or_comm]
  exact decodeMarker_or p 57 n le_rfl hp h1 hn

/-- The count read from the marker field as R112 has it: the field plus one modulo 64, and 64 for the sum
that wraps to 0. -/
theorem decodeMarker_eq_wrapped (w : Word) :
    decodeMarker w =
      if (w.toNat / 2 ^ 57 % 2 ^ 6 + 1) % 64 = 0 then 64 else (w.toNat / 2 ^ 57 % 2 ^ 6 + 1) % 64 := by
  rw [decodeMarker_eq]
  split
  case isTrue hwrap => omega
  case isFalse hne => omega

/-- Counts with one marker are one count, since the marker decodes to each of them (R115 (d)). -/
theorem encodeMarker_inj {n m : Nat} (hn1 : 1 ≤ n) (hn : n ≤ 64) (hm1 : 1 ≤ m) (hm : m ≤ 64)
    (h : encodeMarker n = encodeMarker m) : n = m := by
  calc n = decodeMarker (encodeMarker n) := (decodeMarker_encodeMarker n hn1 hn).symm
    _ = decodeMarker (encodeMarker m) := by rw [h]
    _ = m := decodeMarker_encodeMarker m hm1 hm

/-- The marker leaves the top bit free: its field is bits 62 to 57 (R92, R115 (d)). -/
theorem encodeMarker_lt {n : Nat} (hn : n ≤ 64) : (encodeMarker n).toNat < 2 ^ 63 := by
  rw [encodeMarker_toNat n hn]
  omega

/-! ### The commands -/

/-- The response of a completed command is the one with status byte 0 (R104). -/
theorem respond_ok_eq_answered (s : State) (d : Word) : s.respond .ok d = s.answered 0 d := rfl

theorem exec_mkEnc (n : Byte) (s : State) : exec (.mkEnc n) s = execMkEnc n s := rfl

theorem exec_mkDec (word : Word) (s : State) : exec (.mkDec word) s = execMkDec word s := rfl

theorem exec_mkEnc_of_legal {s : State} {n : Byte} (hf : s.fault = false) (hn : badCount n = false) :
    exec (.mkEnc n) s = .next (s.answered 0 (encodeMarker n.toNat)) := by
  rw [exec_mkEnc, execMkEnc, ← respond_ok_eq_answered]
  refine command_reply hf ?_
  rw [hn]
  rfl

theorem exec_mkDec_of_fault_eq_false {s : State} (word : Word) (hf : s.fault = false) :
    exec (.mkDec word) s = .next (s.answered 0 (BitVec.ofNat 64 (decodeMarker word))) := by
  rw [exec_mkDec, execMkDec, ← respond_ok_eq_answered]
  exact command_reply hf rfl

/-! ### The statements -/

/-- Settles O45: decoding and encoding are what R111 and R112 say in arithmetic, and (d) follows from (a). -/
theorem markerLaws : Obligations.MarkerLaws :=
  ⟨decodeMarker_encodeMarker, fun _ h1 hn _ hp => decodeMarker_encodeMarker_or h1 hn hp,
    decodeMarker_eq_wrapped, fun _ _ hn1 hn hm1 hm h => encodeMarker_inj hn1 hn hm1 hm h,
    fun _ _ hn => encodeMarker_lt hn, decodeMarker_eq 0⟩

/-- Settles O43: a legal count passes the operand check, and its marker is the answer. -/
theorem mkEncAnswersTheMarker : Obligations.MkEncAnswersTheMarker := by
  intro s n hf h1 hn
  rw [exec_mkEnc_of_legal hf (badCount_eq_false.mpr ⟨h1, hn⟩), encodeMarker_eq]

/-- Settles O44: the command has no check, and its answer is the decoded count. -/
theorem mkDecAnswersTheCount : Obligations.MkDecAnswersTheCount := by
  intro s word hf
  rw [exec_mkDec_of_fault_eq_false word hf, decodeMarker_eq]

end Sys2Proof.Machine
end

section
/-! PROOFS. The packer's commands (spec 41_packer.md R121 to R128, R129 (d)): what each leaves when its checks
pass, the words a flush and a close push, and how many words a command pushes. -/

namespace Sys2Proof.Machine

/-! ### Commands whose checks pass -/

theorem exec_pkOpen_of_not_opened {s : State} (nofin : Bool) (hf : s.fault = false)
    (ho : s.pk.state ≠ .opened) :
    exec (.pkOpen nofin) s = .next ((s.setPk { cur := 0, pos := 0, total := 0, emitted := false,
                                               finEn := !nofin, state := .opened }).answered 0 0) := by
  have hopen : s.pk.isOpen = false := by rw [← Bool.not_eq_true, isOpen_packer]; exact ho
  rw [exec, execPkOpen]
  exact command_reply hf (by rw [hopen]; rfl)

theorem exec_pkWbit_of_opened {s : State} (b : Bool) (hf : s.fault = false)
    (ho : s.pk.state = .opened) (hroom : s.pk.total.toNat + 1 ≤ 2 ^ 64 - 1) :
    exec (.pkWbit b) s = .next ((writeBit b s).answered 0 0) := by
  rw [exec, execPkWbit]
  exact command_reply hf (by rw [isOpen_packer.mpr ho, wouldOverflow_eq_false.mpr hroom]; rfl)

theorem exec_pkWfld_of_opened {s : State} (value : Word) {count : Byte} (hf : s.fault = false)
    (ho : s.pk.state = .opened) (h1 : 1 ≤ count.toNat) (h64 : count.toNat ≤ 64)
    (hroom : s.pk.total.toNat + count.toNat ≤ 2 ^ 64 - 1) :
    exec (.pkWfld value count) s = .next ((writeField value count.toNat s).answered 0 0) := by
  have hfits : s.pk.wouldOverflow (countOperand count) = false := wouldOverflow_eq_false.mpr hroom
  rw [exec, execPkWfld]
  exact command_reply hf
    (by rw [isOpen_packer.mpr ho, badCount_eq_false.mpr ⟨h1, h64⟩, hfits]; rfl)

theorem exec_pkFlush_of_opened {s : State} (hf : s.fault = false) (ho : s.pk.state = .opened) :
    exec .pkFlush s = .next ((flushPartial s).answered 0 0) := by
  rw [exec, execPkFlush]
  exact command_reply hf (by rw [isOpen_packer.mpr ho]; rfl)

theorem exec_pkClose_of_opened {s : State} (hf : s.fault = false) (ho : s.pk.state = .opened) :
    exec .pkClose s = .next ((closePacker s).answered 0 0) := by
  rw [exec, execPkClose]
  exact command_reply hf (by rw [isOpen_packer.mpr ho]; rfl)

theorem exec_pkNbits_of_ne_idle {s : State} (hf : s.fault = false) (hi : s.pk.state ≠ .idle) :
    exec .pkNbits s = .next (s.answered 0 s.pk.total) := by
  rw [exec, execPkNbits]
  exact command_reply hf (by rw [beq_false_of_ne hi]; rfl)

theorem exec_pkPos_of_ne_idle {s : State} (hf : s.fault = false) (hi : s.pk.state ≠ .idle) :
    exec .pkPos s = .next (s.answered 0 (BitVec.ofNat 64 s.pk.pos)) := by
  rw [exec, execPkPos]
  exact command_reply hf (by rw [beq_false_of_ne hi]; rfl)

/-! ### The words of a flush and of a close -/

/-- R27 (a), (b): the accumulator holds `pos` bits, fewer than a word. -/
structure Packer.BelowPos (p : Packer) : Prop where
  pos_lt : p.pos < 64
  cur_lt : p.cur.toNat < 2 ^ p.pos

theorem Packer.Inv.belowPos {p : Packer} (h : p.Inv) : p.BelowPos := by
  obtain ⟨hpos, hcur, -⟩ := h
  exact ⟨hpos, hcur⟩

theorem Packer.BelowPos.cur_eq_zero {p : Packer} (h : p.BelowPos) (h0 : p.pos = 0) : p.cur = 0 := by
  have hcur := h.cur_lt
  rw [h0] at hcur
  exact BitVec.eq_of_toNat_eq (by simpa using hcur)

/-- The partial word, if there is one (R124; R126 with finalization disabled). -/
def Packer.partialWords (p : Packer) : List Word := if p.pos = 0 then [] else [p.cur]

/-- The words that finalization pushes (R126, the cases of its table). -/
def Packer.markerWords (p : Packer) : List Word :=
  if p.pos = 0 then (if p.emitted then [encodeMarker 64] else [])
  else if p.pos < 58 then [p.cur ||| encodeMarker p.pos]
  else [p.cur, encodeMarker p.pos]

/-- The state after these words went out and the accumulator with them (R125). -/
def State.drained (s : State) (ws : List Word) : State :=
  { s with
    pk := { s.pk with cur := 0, pos := 0, emitted := s.pk.emitted || decide (0 < s.pk.pos) }
    wout := s.wout ++ ws }

theorem drained_nil {s : State} (h0 : s.pk.pos = 0) (hz : s.pk.cur = 0) : s.drained [] = s := by
  rcases s with ⟨⟨⟩⟩
  simp_all [State.drained]

theorem flushPartial_eq_drained {s : State} (h : s.pk.BelowPos) :
    flushPartial s = s.drained s.pk.partialWords := by
  rw [flushPartial_eq]
  by_cases h0 : s.pk.pos = 0
  · rw [if_neg (by omega), Packer.partialWords, if_pos h0, drained_nil h0 (h.cur_eq_zero h0)]
  · have hpos : 0 < s.pk.pos := by omega
    simp [State.drained, Packer.partialWords, h0, hpos]

theorem finalize_eq_drained {s : State} (h : s.pk.BelowPos) :
    finalize s = s.drained s.pk.markerWords := by
  rcases finalize_cases s h.pos_lt h.cur_lt with ⟨he, h0, e⟩ | ⟨h1, h57, e⟩ | ⟨h58, e⟩ | ⟨he, h0, e⟩ <;>
    rw [e]
  · simp [Packer.markerWords, h0, he, drained_nil h0 (h.cur_eq_zero h0)]
  · have hne : s.pk.pos ≠ 0 := by omega
    have hlt : s.pk.pos < 58 := by omega
    simp [State.drained, Packer.markerWords, hne, hlt, Nat.pos_of_ne_zero hne,
      or_encodeMarker _ _ s.pk.pos h57 h.cur_lt]
  · have hne : s.pk.pos ≠ 0 := by omega
    have hge : ¬s.pk.pos < 58 := by omega
    simp [State.drained, Packer.markerWords, hne, hge, Nat.pos_of_ne_zero hne]
  · simp [State.drained, Packer.markerWords, h0, he]

/-- The close (R126) from a state with R27 (a), (b). -/
theorem closePacker_eq {s : State} (h : s.pk.BelowPos) :
    closePacker s =
      let t := s.drained (if s.pk.finEn then s.pk.markerWords else s.pk.partialWords)
      t.setPk { t.pk with state := .closed } := by
  rw [closePacker, finalize_eq_drained h, flushPartial_eq_drained h]
  cases s.pk.finEn <;> rfl

/-! ### How many words a command pushes -/

/-- The most words a command may push (R129 (d)). -/
def maxPushed : Instr → Nat
  | .pkWbit _ | .pkWfld _ _ | .pkFlush => 1
  | .pkClose => 2
  | _ => 0

/-- The words a completed command pushed are those of its unit's frame. -/
theorem Completed.wout {i : Instr} {s u : State} {r : Reply} (h : Completed i s u r) :
    ∃ pushed, u.wout = s.wout ++ pushed ∧ pushed.length ≤ maxPushed i := by
  cases i with
  | pkOpen | pkWbit | pkWfld | pkFlush | pkClose =>
    obtain ⟨⟨-, hpushed⟩, -⟩ := h
    exact hpushed
  | upOpen | upRbit | upRfld =>
    obtain ⟨⟨he, -⟩, -⟩ := h
    exact ⟨[], by rw [he]; simp, le_rfl⟩
  | pkNbits | pkPos | upGood | upEof | upPos | mkEnc | mkDec | bwPack | bwUnpack =>
    obtain ⟨he, -⟩ := h
    exact ⟨[], by rw [he]; simp, le_rfl⟩

/-- So for every command with a next state: a refusal and a fault push nothing. -/
theorem exec_wout {i : Instr} {s t : State} (h : exec i s = .next t) :
    ∃ pushed, t.wout = s.wout ++ pushed ∧ pushed.length ≤ maxPushed i := by
  rcases exec_cases h with ⟨-, rfl⟩ | ⟨-, u, r, hu, rfl⟩ | ⟨-, c, rfl⟩
  · exact ⟨[], by simp, Nat.zero_le _⟩
  · exact hu.wout
  · exact ⟨[], by simp, Nat.zero_le _⟩

/-! ### The statements -/

/-- Settles O10: the two clauses are the two branches of `writeBit_eq`. -/
theorem pkWbitAppendsOneBit : Obligations.PkWbitAppendsOneBit := by
  intro s b hf ho hpos hcur hroom word
  have htotal : s.pk.total + 1 = BitVec.ofNat 64 (s.pk.total.toNat + 1) := add_total s.pk.total 1
  rw [exec_pkWbit_of_opened b hf ho hroom, writeBit_eq b s hpos hcur, htotal]
  refine ⟨fun hlt => ?_, fun heq => ?_⟩
  · rw [if_pos hlt]; rfl
  · rw [if_neg (by omega)]; rfl

/-- Settles O11: the two clauses are the two branches of `writeField_eq`. -/
theorem pkWfldAppendsTheField : Obligations.PkWfldAppendsTheField := by
  intro s value count hf ho h1 h64 hpos hcur hroom all
  rw [exec_pkWfld_of_opened value hf ho h1 h64 hroom, writeField_eq value count.toNat s hpos hcur,
    add_total]
  refine ⟨fun hlt => ?_, fun hge => ?_⟩
  · rw [if_pos hlt]; rfl
  · rw [if_neg (by omega)]; rfl

/-- Settles O13: the clauses are the cases of `Packer.markerWords`. -/
theorem pkCloseWritesTheMarker : Obligations.PkCloseWritesTheMarker := by
  intro s hf ho hfin hpos hcur closedWith
  have hclose : exec .pkClose s =
      .next (closedWith (s.pk.emitted || decide (0 < s.pk.pos)) s.pk.markerWords) := by
    rw [exec_pkClose_of_opened hf ho, closePacker_eq ⟨hpos, hcur⟩, hfin]
    rfl
  rw [hclose]
  refine ⟨fun he h0 => ?_, fun h1 h57 => ?_, fun h58 => ?_, fun he h0 => ?_⟩
  · simp [Packer.markerWords, he, h0]
  · have hne : s.pk.pos ≠ 0 := by omega
    have hlt : s.pk.pos < 58 := by omega
    simp [Packer.markerWords, hne, hlt, Nat.pos_of_ne_zero hne,
      or_encodeMarker _ _ s.pk.pos h57 hcur]
  · have hne : s.pk.pos ≠ 0 := by omega
    have hge : ¬s.pk.pos < 58 := by omega
    simp [Packer.markerWords, hne, hge, Nat.pos_of_ne_zero hne, encodeMarker_eq]
  · simp [Packer.markerWords, he, h0, encodeMarker_eq]

/-- Settles O21, by the bound of each command's frame. -/
theorem wordsPushedByOneCommand : Obligations.WordsPushedByOneCommand := by
  intro i s t h
  obtain ⟨pushed, hwout, hlen⟩ := exec_wout h
  refine ⟨pushed, hwout, ?_⟩
  cases i with
  | pkWbit | pkWfld | pkFlush | pkClose => exact hlen
  | _ => exact List.eq_nil_of_length_eq_zero (Nat.le_zero.mp hlen)

/-- Settles O9: the check passes, and the opening values are written. -/
theorem pkOpenStartsAnEmptyStream : Obligations.PkOpenStartsAnEmptyStream :=
  fun _ nofin hf ho => exec_pkOpen_of_not_opened nofin hf ho

/-- Settles O12: the two clauses are the two branches of `flushPartial_eq`. -/
theorem pkFlushPushesThePartialWord : Obligations.PkFlushPushesThePartialWord := by
  intro s hf ho
  rw [exec_pkFlush_of_opened hf ho, flushPartial_eq]
  refine ⟨fun h0 => ?_, fun hpos => ?_⟩
  · rw [if_neg (by omega)]; rfl
  · rw [if_pos hpos]; rfl

/-- Settles O14: the clauses are the cases of `Packer.partialWords`. -/
theorem pkCloseWithoutMarker : Obligations.PkCloseWithoutMarker := by
  intro s hf ho hfin hpos hcur
  rw [exec_pkClose_of_opened hf ho, closePacker_eq ⟨hpos, hcur⟩, hfin]
  refine ⟨fun h0 => ?_, fun h1 => ?_⟩
  · simp [State.drained, State.answered, State.setPk, Packer.partialWords, h0]
  · simp [State.drained, State.answered, State.setPk, Packer.partialWords, h1, h1.ne']

/-- Settles O15: the queries answer what they read. -/
theorem packerQueriesAnswer : Obligations.PackerQueriesAnswer :=
  fun _ hf hi => ⟨exec_pkNbits_of_ne_idle hf hi, exec_pkPos_of_ne_idle hf hi⟩

end Sys2Proof.Machine
end

section
/-! PROOFS. The packer as a writer of bits (spec 20_memory.md R63, R64; 41_packer.md R122 to R126, R129): every
write appends its bits to those in the accumulator, full words go out and the tail stays. From this come the
laws of field writes, and the words of a whole stream after a flush or a close. -/

namespace Sys2Proof.Machine

open Config

/-! ### Streams in two parts -/

/-- The words and the tail of a stream that goes on depend on what came before through its tail alone. -/
theorem fullWords_tailBits_append (bits f : List Bool) :
    fullWords (bits ++ f) = fullWords bits ++ fullWords (tailBits bits ++ f) ∧
    tailBits (bits ++ f) = tailBits (tailBits bits ++ f) := by
  induction hq : bits.length / 64 generalizing bits with
  | zero =>
    have hlt : bits.length < 64 := by omega
    rw [fullWords_of_lt hlt, tailBits_of_lt hlt]
    exact ⟨rfl, rfl⟩
  | succ q ih =>
    have hge : 64 ≤ bits.length := by omega
    have hge' : 64 ≤ (bits ++ f).length := by rw [List.length_append]; omega
    obtain ⟨hwords, htail⟩ := ih (bits.drop 64) (by rw [List.length_drop]; omega)
    rw [fullWords_cons hge', tailBits_drop hge', List.drop_append_of_le_length hge,
      List.take_append_of_le_length hge, hwords, htail, fullWords_cons hge, tailBits_drop hge]
    exact ⟨rfl, rfl⟩

theorem fullWords_append (bits f : List Bool) :
    fullWords (bits ++ f) = fullWords bits ++ fullWords (tailBits bits ++ f) :=
  (fullWords_tailBits_append bits f).1

theorem tailBits_append (bits f : List Bool) :
    tailBits (bits ++ f) = tailBits (tailBits bits ++ f) :=
  (fullWords_tailBits_append bits f).2

theorem fieldBits_wordOfBits_tailBits (bits : List Bool) :
    fieldBits (wordOfBits (tailBits bits)) (bits.length % 64) = tailBits bits := by
  have hlen := tailBits_length bits
  rw [← hlen]
  exact fieldBits_wordOfBits _ (by omega)

theorem wordOfBits_tailBits_lt (bits : List Bool) :
    (wordOfBits (tailBits bits)).toNat < 2 ^ (bits.length % 64) := by
  have hlen := tailBits_length bits
  rw [wordOfBits_toNat _ (by omega), ← hlen]
  exact natOfBits_lt _

/-! ### Appending bits -/

/-- The bits in the accumulator, in stream order (R21, R22). -/
def Packer.heldBits (p : Packer) : List Bool := fieldBits p.cur p.pos

@[simp] theorem Packer.heldBits_length (p : Packer) : p.heldBits.length = p.pos := fieldBits_length _ _

/-- What the writes of R122 and R123 do, as bits: these follow the held ones, the full words go out and the
tail is held. -/
def appendBits (f : List Bool) (s : State) : State :=
  let all := s.pk.heldBits ++ f
  { s with
    pk := { s.pk with
      cur := wordOfBits (tailBits all), pos := all.length % 64
      total := s.pk.total + BitVec.ofNat 64 f.length
      emitted := s.pk.emitted || decide (64 ≤ all.length) }
    wout := s.wout ++ fullWords all }

@[simp] theorem appendBits_cur (f : List Bool) (s : State) :
    (appendBits f s).pk.cur = wordOfBits (tailBits (s.pk.heldBits ++ f)) := rfl

@[simp] theorem appendBits_pos (f : List Bool) (s : State) :
    (appendBits f s).pk.pos = (s.pk.pos + f.length) % 64 := by
  simp [appendBits]

@[simp] theorem appendBits_emitted (f : List Bool) (s : State) :
    (appendBits f s).pk.emitted = (s.pk.emitted || decide (64 ≤ s.pk.pos + f.length)) := by
  simp [appendBits]

@[simp] theorem appendBits_wout (f : List Bool) (s : State) :
    (appendBits f s).wout = s.wout ++ fullWords (s.pk.heldBits ++ f) := rfl

@[simp] theorem appendBits_heldBits (f : List Bool) (s : State) :
    (appendBits f s).pk.heldBits = tailBits (s.pk.heldBits ++ f) :=
  fieldBits_wordOfBits_tailBits _

theorem appendBits_total_toNat {f : List Bool} {s : State}
    (h : s.pk.total.toNat + f.length ≤ 2 ^ 64 - 1) :
    (appendBits f s).pk.total.toNat = s.pk.total.toNat + f.length := by
  change (s.pk.total + BitVec.ofNat 64 f.length).toNat = _
  rw [add_total, BitVec.toNat_ofNat, Nat.mod_eq_of_lt (by omega)]

theorem appendBits_belowPos (f : List Bool) (s : State) : (appendBits f s).pk.BelowPos :=
  ⟨Nat.mod_lt _ (by decide), wordOfBits_tailBits_lt _⟩

theorem appendBits_nil {s : State} (h : s.pk.BelowPos) : appendBits [] s = s := by
  obtain ⟨hpos, hcur⟩ := h
  have hlt : (s.pk.heldBits).length < 64 := by simpa using hpos
  have hword : wordOfBits s.pk.heldBits = s.pk.cur := by
    apply BitVec.eq_of_toNat_eq
    rw [wordOfBits_toNat _ hlt.le, Packer.heldBits, natOfBits_fieldBits, Nat.mod_eq_of_lt hcur]
  simp [appendBits, fullWords_of_lt hlt, tailBits_of_lt hlt, hword, Nat.mod_eq_of_lt hpos,
    Nat.not_le.mpr hpos]

/-- Two appends are one. -/
theorem appendBits_append (f g : List Bool) (s : State) :
    appendBits (f ++ g) s = appendBits g (appendBits f s) := by
  have hwords := fullWords_append (s.pk.heldBits ++ f) g
  have htail := tailBits_append (s.pk.heldBits ++ f) g
  have hpos : (s.pk.pos + (f.length + g.length)) % 64 =
      ((s.pk.pos + f.length) % 64 + g.length) % 64 := by omega
  have hemit : (64 ≤ s.pk.pos + (f.length + g.length)) ↔
      (64 ≤ s.pk.pos + f.length ∨ 64 ≤ (s.pk.pos + f.length) % 64 + g.length) := by omega
  rw [List.append_assoc] at hwords htail
  rw [appendBits, appendBits, appendBits_heldBits, hwords, htail]
  simp only [appendBits, List.length_append, Packer.heldBits_length, tailBits_length, hpos, hemit,
    List.append_assoc, BitVec.ofNat_add, BitVec.add_assoc, Bool.decide_or, Bool.or_assoc]

/-- The append of at most a word's width in arithmetic, the form of R123's two cases. -/
theorem appendBits_eq {f : List Bool} {s : State} (h : s.pk.BelowPos) (hf : f.length ≤ 64) :
    appendBits f s =
      let all := s.pk.cur.toNat + natOfBits f * 2 ^ s.pk.pos
      if s.pk.pos + f.length < 64 then
        { s with pk := { s.pk with
            cur := BitVec.ofNat 64 all, pos := s.pk.pos + f.length
            total := s.pk.total + BitVec.ofNat 64 f.length } }
      else
        { s with
          pk := { s.pk with
            cur := BitVec.ofNat 64 (all / 2 ^ 64), pos := s.pk.pos + f.length - 64, emitted := true
            total := s.pk.total + BitVec.ofNat 64 f.length }
          wout := s.wout ++ [BitVec.ofNat 64 (all % 2 ^ 64)] } := by
  obtain ⟨hpos, hcur⟩ := h
  have hheld : (s.pk.heldBits).length < 64 := by simpa using hpos
  have hall : natOfBits (s.pk.heldBits ++ f) = s.pk.cur.toNat + natOfBits f * 2 ^ s.pk.pos := by
    rw [natOfBits_append, Packer.heldBits_length, Packer.heldBits, natOfBits_fieldBits,
      Nat.mod_eq_of_lt hcur]
  dsimp only
  rw [← hall]
  split
  case isTrue hlt =>
    have hlen : (s.pk.heldBits ++ f).length < 64 := by simpa using hlt
    simp [appendBits, fullWords_of_lt hlen, tailBits_of_lt hlen, wordOfBits, hlt,
      Nat.mod_eq_of_lt hlt]
  case isFalse hge =>
    obtain ⟨hwords, htail⟩ := append_across s.pk.heldBits f
      (by rw [Packer.heldBits_length]; omega) hf
    rw [fullWords_of_lt hheld, tailBits_of_lt hheld, wordOfBits_take_toNat, List.nil_append] at hwords
    rw [tailBits_of_lt hheld] at htail
    have hmod : (s.pk.pos + f.length) % 64 = s.pk.pos + f.length - 64 := by omega
    have hle : 64 ≤ s.pk.pos + f.length := by omega
    simp [appendBits, hwords, htail, wordOfBits_drop_toNat, hmod, hle]

/-- A field write appends the field's bits (R123). -/
theorem writeField_eq_appendBits (value : Word) {count : Nat} {s : State} (h : s.pk.BelowPos)
    (hc : count ≤ 64) : writeField value count s = appendBits (fieldBits value count) s := by
  rw [writeField_eq value count s h.pos_lt h.cur_lt, appendBits_eq h (by simpa using hc),
    natOfBits_fieldBits, fieldBits_length]

/-- A bit write appends the bit (R122). -/
theorem writeBit_eq_appendBits (b : Bool) {s : State} (h : s.pk.BelowPos) :
    writeBit b s = appendBits [b] s := by
  have hnat : natOfBits [b] = b.toNat := by simp [natOfBits]
  rw [writeBit_eq b s h.pos_lt h.cur_lt, appendBits_eq h (by simp), hnat]
  dsimp only
  split
  case isTrue hlt => rw [List.length_singleton, if_pos hlt]; rfl
  case isFalse hge =>
    obtain ⟨hpos, hcur⟩ := h
    have hp : s.pk.pos = 63 := by omega
    have hlt : s.pk.cur.toNat + b.toNat * 2 ^ s.pk.pos < 2 ^ 64 := by
      have := b.toNat_le
      rw [hp] at hcur ⊢
      omega
    rw [List.length_singleton, if_neg hge, Nat.mod_eq_of_lt hlt, Nat.div_eq_of_lt hlt, hp]
    rfl

/-! ### Writes as commands -/

theorem exec_pkWbit_eq {s : State} (b : Bool) (hf : s.fault = false) (ho : s.pk.state = .opened)
    (h : s.pk.BelowPos) (hroom : s.pk.total.toNat + 1 ≤ 2 ^ 64 - 1) :
    exec (.pkWbit b) s = .next ((appendBits [b] s).answered 0 0) := by
  rw [exec_pkWbit_of_opened b hf ho hroom, writeBit_eq_appendBits b h]

theorem exec_pkWfld_eq {s : State} (value : Word) {count : Byte} (hf : s.fault = false)
    (ho : s.pk.state = .opened) (h : s.pk.BelowPos) (h1 : 1 ≤ count.toNat) (h64 : count.toNat ≤ 64)
    (hroom : s.pk.total.toNat + count.toNat ≤ 2 ^ 64 - 1) :
    exec (.pkWfld value count) s =
      .next ((appendBits (fieldBits value count.toNat) s).answered 0 0) := by
  rw [exec_pkWfld_of_opened value hf ho h1 h64 hroom, writeField_eq_appendBits value h h64]

theorem execAll_cons {i : Instr} {s t : State} (is : List Instr) (h : exec i s = .next t) :
    execAll (i :: is) s = execAll is t := by
  simp only [execAll, h]

/-- Bit writes one after the other append all their bits, with one response each (R122, R98). -/
theorem execAll_pkWbit {bs : List Bool} {s : State} (hf : s.fault = false)
    (ho : s.pk.state = .opened) (h : s.pk.BelowPos)
    (hroom : s.pk.total.toNat + bs.length ≤ 2 ^ 64 - 1) :
    execAll (bs.map .pkWbit) s = .next { appendBits bs s with
      responses := s.responses ++ List.replicate bs.length (response 0 0) } := by
  induction bs generalizing s with
  | nil => simp [execAll, appendBits_nil h]
  | cons b bs ih =>
    rw [List.length_cons] at hroom
    have htotal : (appendBits [b] s).pk.total.toNat = s.pk.total.toNat + 1 :=
      appendBits_total_toNat (by simp; omega)
    have hrest := ih (s := (appendBits [b] s).answered 0 0) hf ho (appendBits_belowPos [b] s)
      (by change (appendBits [b] s).pk.total.toNat + _ ≤ _; omega)
    have hcons : appendBits (b :: bs) s = appendBits bs (appendBits [b] s) :=
      appendBits_append [b] bs s
    rw [List.map_cons, execAll_cons _ (exec_pkWbit_eq b hf ho h (by omega)), hrest, hcons,
      List.length_cons, List.replicate_succ, List.append_cons]
    rfl

/-! ### A packer that holds a bit stream -/

theorem State.holdsBits.belowPos {s : State} {base : List Word} {bits : List Bool}
    (h : s.holdsBits base bits) : s.pk.BelowPos := by
  obtain ⟨-, -, hcur, hpos, -, -⟩ := h
  refine ⟨by rw [hpos]; exact Nat.mod_lt _ (by decide), ?_⟩
  rw [hcur, hpos]
  exact wordOfBits_tailBits_lt bits

theorem State.holdsBits.heldBits {s : State} {base : List Word} {bits : List Bool}
    (h : s.holdsBits base bits) : s.pk.heldBits = tailBits bits := by
  obtain ⟨-, -, hcur, hpos, -, -⟩ := h
  rw [Packer.heldBits, hcur, hpos]
  exact fieldBits_wordOfBits_tailBits bits

/-- The stream grows by the bits appended (R64, R129 (c)). -/
theorem State.holdsBits.append {s : State} {base : List Word} {bits f : List Bool}
    (h : s.holdsBits base bits) (hroom : bits.length + f.length ≤ 2 ^ 64 - 1) :
    (appendBits f s).holdsBits base (bits ++ f) := by
  have hheld := h.heldBits
  obtain ⟨ho, hwout, -, hpos, htotal, hemit⟩ := h
  have hpos : s.pk.pos = bits.length % 64 := hpos
  have hemit : s.pk.emitted = true ↔ 64 ≤ bits.length := hemit
  refine ⟨ho, ?_, ?_, ?_, ?_, ?_⟩
  · rw [appendBits_wout, hheld, hwout, fullWords_append bits, List.append_assoc]
  · rw [appendBits_cur, hheld, tailBits_append bits]
  · rw [appendBits_pos, hpos, List.length_append, Nat.mod_add_mod]
  · rw [appendBits_total_toNat (by omega), htotal, List.length_append]
  · rw [appendBits_emitted, hpos, Bool.or_eq_true, hemit, decide_eq_true_iff, List.length_append]
    simp only [W]
    omega

/-- The partial word completes the words of the unfinalized stream (R95). -/
theorem State.holdsBits.wout_partialWords {s : State} {base : List Word} {bits : List Bool}
    (h : s.holdsBits base bits) :
    s.wout ++ s.pk.partialWords = base ++ unfinalizedWords bits := by
  obtain ⟨-, hwout, hcur, hpos, -, -⟩ := h
  rw [Packer.partialWords, unfinalizedWords, hwout, hcur, hpos]
  split
  · rw [List.append_nil]
  · rw [List.append_assoc]

/-- The words of finalization complete those of the finalized stream (R94). -/
theorem State.holdsBits.wout_markerWords {s : State} {base : List Word} {bits : List Bool}
    (h : s.holdsBits base bits) :
    s.wout ++ s.pk.markerWords = base ++ finalizedWords bits := by
  obtain ⟨-, hwout, hcur, hpos, -, hemit⟩ := h
  have hpos : s.pk.pos = bits.length % 64 := hpos
  have hemit : s.pk.emitted = true ↔ 64 ≤ bits.length := hemit
  have hwords : fullWords bits ++ s.pk.markerWords = finalizedWords bits := by
    rw [Packer.markerWords, hcur, hpos]
    rcases finalizedWords_cases bits with ⟨rfl, hw⟩ | ⟨hne, h0, hw⟩ | ⟨hr, h58, hw⟩ | ⟨h58, hw⟩ <;>
      rw [hw]
    · have he : s.pk.emitted = false := by simpa using hemit
      simp [he, fullWords]
    · have hlen := List.length_pos_of_ne_nil hne
      rw [if_pos h0, if_pos (hemit.mpr (by omega))]
    · rw [if_neg (by omega), if_pos h58]
    · rw [if_neg (by omega), if_neg (by omega)]
  rw [hwout, List.append_assoc, hwords]

/-! ### The statements -/

/-- Settles O22: both writes are appends, of one bit and of the field's bits. -/
theorem writesExtendTheBitStream : Obligations.WritesExtendTheBitStream := by
  intro s base bits hf hbits
  have hbelow := hbits.belowPos
  obtain ⟨ho, -, -, -, htotal, -⟩ := id hbits
  refine ⟨fun b hroom => ?_, fun value count hc hroom => ?_⟩
  · exact ⟨_, exec_pkWbit_eq b hf ho hbelow (by omega), hbits.append hroom, rfl⟩
  · obtain ⟨h1, h64⟩ := legalCount_iff.mp hc
    exact ⟨_, exec_pkWfld_eq value hf ho hbelow h1 h64 (by omega),
      hbits.append (by rwa [fieldBits_length]), rfl⟩

/-- Settles O23: the close pushes what completes the words of the stream. -/
theorem closeCompletesTheStream : Obligations.CloseCompletesTheStream := by
  intro s base bits hf hbits
  obtain ⟨ho, -, -, -, htotal, -⟩ := id hbits
  refine ⟨_, exec_pkClose_of_opened hf ho, ?_⟩
  rw [closePacker_eq hbits.belowPos]
  refine ⟨rfl, ?_, rfl, rfl, rfl, htotal⟩
  change s.wout ++ (if s.pk.finEn then _ else _) = _
  split
  · exact hbits.wout_markerWords
  · exact hbits.wout_partialWords

/-- Settles O19: the field write and the bit writes append the same bits. -/
theorem fieldWriteIsItsBitWrites : Obligations.FieldWriteIsItsBitWrites := by
  intro s value count hf ho hinv h1 h64 hroom
  have hbits := execAll_pkWbit (bs := fieldBits value count.toNat) hf ho hinv.belowPos
    (by rwa [fieldBits_length])
  rw [fieldBits, List.map_map] at hbits
  exact ⟨_, _, exec_pkWfld_eq value hf ho hinv.belowPos h1 h64 hroom, hbits, rfl⟩

/-- Settles O20: a field's bits are those of its low part, then those of its high part. -/
theorem fieldWriteSplits : Obligations.FieldWriteSplits := by
  intro s value a b c hf ho hinv ha hb hab hc hroom
  have hbelow := hinv.belowPos
  have hwhole := exec_pkWfld_eq value hf ho hbelow (count := c) (by omega) hc hroom
  rw [← hab, fieldBits_add, appendBits_append] at hwhole
  have hlow := exec_pkWfld_eq (low value a.toNat) hf ho hbelow ha (by omega) (by omega)
  rw [fieldBits_low] at hlow
  have htotal := appendBits_total_toNat (f := fieldBits value a.toNat) (s := s)
    (by rw [fieldBits_length]; omega)
  rw [fieldBits_length] at htotal
  have hhigh := exec_pkWfld_eq (s := (appendBits (fieldBits value a.toNat) s).answered 0 0)
    (value >>> a.toNat) (count := b) hf ho (appendBits_belowPos _ s) hb (by omega)
    (by change (appendBits _ s).pk.total.toNat + _ ≤ _; omega)
  exact ⟨_, _, hwhole, (execAll_cons _ hlow).trans (execAll_cons _ hhigh), rfl⟩

/-- Settles O24: the flush pushes what completes the words of the unfinalized stream. -/
theorem flushDeliversEveryBit : Obligations.FlushDeliversEveryBit := by
  intro s base bits hf hbits
  obtain ⟨ho, -⟩ := id hbits
  refine ⟨_, exec_pkFlush_of_opened hf ho, ?_⟩
  rw [flushPartial_eq_drained hbits.belowPos]
  exact ⟨rfl, hbits.wout_partialWords, ho, rfl, rfl, rfl⟩

end Sys2Proof.Machine
end

section
/-! PROOFS. The unpacker's commands (spec 42_unpacker.md R161 to R169): what the opens, the advances and the reads
leave when their checks pass, and the answers of the queries. -/

namespace Sys2Proof.Machine

open Config

/-! ### Checks -/

theorem isOpen_unpacker {u : Unpacker} : u.isOpen = true ↔ u.state = .opened := by
  simp [Unpacker.isOpen]

/-- The check of `UP_READ_AT_EOF` passes (R163, R164, R166). -/
theorem sizedEof_eq_false {u : Unpacker} :
    u.sizedEof = false ↔ (u.mode = .sized → u.final = true → u.pos < u.valid) := by
  rw [← Bool.not_eq_true, sizedEof_eq_true]
  simp only [not_and, not_le]

/-- The check of a truncated field passes (R164 (ii)). -/
theorem overrun_eq_false {u : Unpacker} :
    u.overrun = false ↔ (u.mode = .sized → u.final = true → u.pos ≤ u.valid) := by
  simp [Unpacker.overrun]

/-! ### Commands whose checks pass -/

theorem exec_upOpen_unsized {s : State} (hf : s.fault = false) :
    exec (.upOpen true) s = .next ((s.setUp (openedUnpacker .unsized 64)).answered 0 0) := by
  rw [exec, execUpOpen]
  exact command_reply hf rfl

theorem exec_upOpen_sized {s t : State} (hf : s.fault = false) (h : openSized s = .ok t) :
    exec (.upOpen false) s = .next (t.answered 0 0) := by
  rw [exec, execUpOpen]
  exact command_reply hf (by rw [h]; rfl)

theorem exec_upRbit_of_readBit {s t : State} {d : Word} (hf : s.fault = false)
    (ho : s.up.state = .opened) (he : s.up.sizedEof = false) (h : readBit s = reply t d) :
    exec .upRbit s = .next (t.answered 0 d) := by
  rw [exec, execUpRbit]
  exact command_reply hf (by rw [isOpen_unpacker.mpr ho, he, h]; rfl)

/-- A field read whose checks pass ends as `readField` does (R164). -/
theorem exec_upRfld_eq_conclude {s : State} {count : Byte} (hf : s.fault = false)
    (ho : s.up.state = .opened) (hc : badCount count = false) (he : s.up.sizedEof = false) :
    exec (.upRfld count) s = conclude s (readField count.toNat s) := by
  rw [exec, execUpRfld, command, hf, isOpen_unpacker.mpr ho, hc, he]
  rfl

theorem exec_upRfld_of_readField {s t : State} {count : Byte} {d : Word} (hf : s.fault = false)
    (ho : s.up.state = .opened) (hc : badCount count = false) (he : s.up.sizedEof = false)
    (h : readField count.toNat s = reply t d) :
    exec (.upRfld count) s = .next (t.answered 0 d) := by
  rw [exec_upRfld_eq_conclude hf ho hc he, h]
  rfl

theorem exec_upGood_of_opened {s : State} (hf : s.fault = false) (ho : s.up.state = .opened) :
    exec .upGood s = .next (s.answered 0 (dataOfBool s.up.good)) := by
  rw [exec, execUpGood]
  exact command_reply hf (by rw [isOpen_unpacker.mpr ho]; rfl)

theorem exec_upEof_of_opened {s : State} (hf : s.fault = false) (ho : s.up.state = .opened) :
    exec .upEof s = .next (s.answered 0 (dataOfBool s.up.eof)) := by
  rw [exec, execUpEof]
  exact command_reply hf (by rw [isOpen_unpacker.mpr ho]; rfl)

theorem exec_upPos_of_opened {s : State} (hf : s.fault = false) (ho : s.up.state = .opened) :
    exec .upPos s = .next (s.answered 0 (BitVec.ofNat 64 s.up.pos)) := by
  rw [exec, execUpPos]
  exact command_reply hf (by rw [isOpen_unpacker.mpr ho]; rfl)

/-! ### The open and the advance, by the words left -/

theorem advanceSized_of_srcDone {s : State} (hd : s.up.srcDone = true) :
    advanceSized s = .ok (s.setUp { s.up with
      cur := s.up.next, pos := 0, valid := decodeMarker s.up.next, final := true }) := by
  simp [advanceSized, hd]

/-- The sized advance that pops the word `m` (R162 steps 3, 4): `m` is the last word if no other follows it, and
then, as a marker-only word, it makes the promoted word the final one. -/
theorem advanceSized_of_drop {s : State} {m : Word} {rest : List Word}
    (hd : s.up.srcDone = false) (hr : s.win.drop s.winRd = m :: rest) :
    advanceSized s = .ok (s.winStep.setUp (
      let u := { s.up with cur := s.up.next, next := m, pos := 0, srcDone := rest.isEmpty }
      if rest.isEmpty = true ∧ 58 ≤ decodeMarker m then
        { u with valid := decodeMarker m, final := true }
      else u)) := by
  obtain ⟨hpop, hrest⟩ := wordPop_of_drop hr
  have hend : s.winStep.winAtEnd = rest.isEmpty := winAtEnd_of_drop hrest
  simp only [advanceSized, hd, hpop, hend, isExtra, payloadBits, Bool.false_eq_true, if_false,
    Bool.and_eq_true, decide_eq_true_iff]
  split <;> rfl

theorem advanceUnsized_of_drop {s : State} {m : Word} {rest : List Word}
    (hr : s.win.drop s.winRd = m :: rest) :
    advanceUnsized s = .ok (s.winStep.setUp { s.up with cur := m, pos := 0 }) := by
  obtain ⟨hpop, -⟩ := wordPop_of_drop hr
  simp [advanceUnsized, hpop]

theorem openSized_of_nil {s : State} (hr : s.win.drop s.winRd = []) :
    openSized s = .ok (s.setUp { openedUnpacker .sized 0 with
      srcDone := true, final := true, valid := 0 }) := by
  have hpop : s.wordPop = none := wordPop_eq_none.mpr (winAtEnd_of_drop hr)
  simp [openSized, hpop]

/-- The sized open of a source with words: the first goes into the lookahead and one advance follows (R161). -/
theorem openSized_of_drop {s : State} {w : Word} {rest : List Word}
    (hr : s.win.drop s.winRd = w :: rest) :
    openSized s = advanceSized (s.winStep.setUp { openedUnpacker .sized 0 with
      next := w, srcDone := rest.isEmpty }) := by
  obtain ⟨hpop, hrest⟩ := wordPop_of_drop hr
  simp [openSized, hpop, winAtEnd_of_drop hrest]

theorem advance_of_sized {s : State} (hm : s.up.mode = .sized) : advance s = advanceSized s := by
  simp only [advance, hm]

theorem advance_of_unsized {s : State} (hm : s.up.mode = .unsized) :
    advance s = advanceUnsized s := by
  simp only [advance, hm]

/-! ### The advance that a read begins with -/

theorem lazyAdvance_of_lt {s : State} (h : s.up.pos < 64) : lazyAdvance s = .ok s :=
  if_neg (Nat.not_le.mpr h)

theorem lazyAdvance_of_ge {s : State} (h : 64 ≤ s.up.pos) : lazyAdvance s = advance s := if_pos h

theorem fieldLazyAdvance_of_lt {s : State} (h : s.up.pos < 64) : fieldLazyAdvance s = .ok s :=
  if_neg (Nat.not_le.mpr h)

theorem fieldLazyAdvance_of_ge {s : State} (h : 64 ≤ s.up.pos) :
    fieldLazyAdvance s = fieldAdvance s := if_pos h

theorem fieldAdvance_of_final {s : State} (hm : s.up.mode = .sized) (hf : s.up.final = true) :
    fieldAdvance s = .error (.raise .upTruncated) := by
  simp [fieldAdvance, hm, hf]

theorem fieldAdvance_of_not_final {s : State} (h : s.up.mode = .sized → s.up.final = false) :
    fieldAdvance s = advance s := by
  refine if_neg fun hcond => ?_
  obtain ⟨hm, hf⟩ : s.up.mode = .sized ∧ s.up.final = true := by simpa using hcond
  rw [h hm] at hf
  cases hf

/-! ### Reads -/

/-- The state with the read position moved. -/
def State.atPos (s : State) (p : Nat) : State := s.setUp { s.up with pos := p }

/-- The read of a bit after its lazy advance (R163). -/
theorem readBit_of_lazyAdvance {s t : State} (h : lazyAdvance s = .ok t) :
    readBit s = reply (t.atPos (t.up.pos + 1)) (dataOfBool (t.up.cur.getLsbD t.up.pos)) := by
  rw [readBit, h]
  rfl

theorem readField_of_lazyAdvance {s t : State} {count : Nat} (h : fieldLazyAdvance s = .ok t) :
    readField count s = extractField count t := by
  rw [readField, h]

theorem finishField_eq_reply {s : State} {d : Word} (h : s.up.overrun = false) :
    finishField s d = reply s d := by
  rw [finishField, h]
  rfl

theorem finishField_eq_raise {s : State} {d : Word} (h : s.up.overrun = true) :
    finishField s d = raise .upTruncated := by
  rw [finishField, h]
  rfl

/-- A field inside the current word (R164). -/
theorem extractField_of_le {s : State} {count : Nat} (h : s.up.pos + count ≤ 64) :
    extractField count s =
      finishField (s.atPos (s.up.pos + count)) (low (s.up.cur >>> s.up.pos) count) :=
  if_pos (by simp only [W]; omega)

/-- A field across the end of the current word (R164): the rest of its bits come from the word advanced to. -/
theorem extractField_of_fieldAdvance {s t : State} {count : Nat} (hp : s.up.pos ≤ 64)
    (h : 64 < s.up.pos + count) (ht : fieldAdvance s = .ok t) :
    extractField count s = finishField (t.atPos (s.up.pos + count - 64))
      (s.up.cur >>> s.up.pos |||
        low t.up.cur (s.up.pos + count - 64) <<< (64 - s.up.pos)) := by
  have hgt : ¬count ≤ W - s.up.pos := by simp only [W]; omega
  have hrem : s.up.pos + count - 64 = count - (64 - s.up.pos) := by omega
  simp only [extractField, if_neg hgt, ht, hrem]
  rfl

theorem extractField_of_fieldAdvance_error {s : State} {count : Nat} {e : Halt} (hp : s.up.pos ≤ 64)
    (h : 64 < s.up.pos + count) (he : fieldAdvance s = .error e) :
    extractField count s = .error e := by
  have hgt : ¬count ≤ W - s.up.pos := by simp only [W]; omega
  simp only [extractField, if_neg hgt, he]

/-- A bit of a word as response data. -/
theorem dataOfBool_getLsbD (w : Word) (p : Nat) :
    dataOfBool (w.getLsbD p) = BitVec.ofNat 64 (w.toNat / 2 ^ p % 2) := by
  rw [← Nat.toNat_testBit, BitVec.getLsbD]
  cases w.toNat.testBit p <;> rfl

/-- A field of a word in arithmetic. -/
theorem low_shiftRight (w : Word) (p count : Nat) :
    low (w >>> p) count = BitVec.ofNat 64 (w.toNat / 2 ^ p % 2 ^ count) := by
  rw [low, BitVec.toNat_ushiftRight, Nat.shiftRight_eq_div_pow]

/-- The bits of a word from position `p` on are fewer than `64 - p` bits' worth. -/
theorem shiftRight_toNat_lt (w : Word) {p : Nat} (hp : p ≤ 64) :
    (w >>> p).toNat < 2 ^ (64 - p) := by
  rw [BitVec.toNat_ushiftRight, Nat.shiftRight_eq_div_pow, Nat.div_lt_iff_lt_mul (by positivity),
    ← pow_add, Nat.sub_add_cancel hp]
  exact w.isLt

/-- The high bits of one word and the low bits of the next, joined (R164). -/
theorem shiftRight_or_low_shiftLeft (cur next : Word) {p : Nat} (rem : Nat) (hp : p ≤ 64) :
    cur >>> p ||| low next rem <<< (64 - p) =
      BitVec.ofNat 64 (cur.toNat / 2 ^ p + next.toNat % 2 ^ rem * 2 ^ (64 - p)) := by
  rw [or_shiftLeft_eq _ _ _ (shiftRight_toNat_lt cur hp), low_toNat, BitVec.toNat_ushiftRight,
    Nat.shiftRight_eq_div_pow]

/-- A bit read at the end of a word, before the final one, returns bit 0 of the word it advances to (R163). -/
theorem exec_upRbit_of_advance {s t : State} (hf : s.fault = false) (ho : s.up.state = .opened)
    (hfin : s.up.mode = .sized → s.up.final = false) (hp : 64 ≤ s.up.pos)
    (h : advance s = .ok t) (ht : t.up.pos = 0) : exec .upRbit s = .next
      ((t.atPos 1).answered 0 (BitVec.ofNat 64 (t.up.cur.toNat % 2))) := by
  have hbit := readBit_of_lazyAdvance ((lazyAdvance_of_ge hp).trans h)
  rw [dataOfBool_getLsbD, ht, pow_zero, Nat.div_one] at hbit
  refine exec_upRbit_of_readBit hf ho (sizedEof_eq_false.mpr fun hm hfinal => ?_) hbit
  rw [hfin hm] at hfinal
  cases hfinal

/-- A field read across the end of a word, before the final one, joins the bits of the two words, unless it
passes the valid bits of the second (R164). -/
theorem exec_upRfld_of_advance {s t : State} {count : Byte} (hf : s.fault = false)
    (ho : s.up.state = .opened) (hc : badCount count = false)
    (hfin : s.up.mode = .sized → s.up.final = false) (hp : s.up.pos < 64)
    (hgt : 64 < s.up.pos + count.toNat) (h : advance s = .ok t)
    (hov : t.up.mode = .sized → t.up.final = true → s.up.pos + count.toNat - 64 ≤ t.up.valid) :
    exec (.upRfld count) s = .next
      ((t.atPos (s.up.pos + count.toNat - 64)).answered 0 (BitVec.ofNat 64
        (s.up.cur.toNat / 2 ^ s.up.pos +
          t.up.cur.toNat % 2 ^ (s.up.pos + count.toNat - 64) * 2 ^ (64 - s.up.pos)))) := by
  refine exec_upRfld_of_readField hf ho hc (sizedEof_eq_false.mpr fun hm hfinal => ?_) ?_
  · rw [hfin hm] at hfinal
    cases hfinal
  · rw [readField_of_lazyAdvance (fieldLazyAdvance_of_lt hp), extractField_of_fieldAdvance hp.le hgt
      ((fieldAdvance_of_not_final hfin).trans h), shiftRight_or_low_shiftLeft _ _ _ hp.le]
    exact finishField_eq_reply (overrun_eq_false.mpr hov)

/-! ### The statements -/

/-- Settles O29: the sized open is the promotion of the first word, by the words after it. -/
theorem upOpenLoadsTheUnpacker : Obligations.UpOpenLoadsTheUnpacker := by
  intro s hf openedAs
  refine ⟨exec_upOpen_unsized hf, fun hr => ?_, fun w hr => ?_, fun w m hr => ?_,
    fun w m x rest hr => ?_⟩
  · exact exec_upOpen_sized hf (openSized_of_nil hr)
  all_goals
    have hopen := openSized_of_drop hr
    have hrest := drop_step (t := s.winStep) hr rfl rfl
  · exact exec_upOpen_sized hf (hopen.trans (advanceSized_of_srcDone rfl))
  · rw [exec_upOpen_sized hf (hopen.trans (advanceSized_of_drop rfl hrest))]
    by_cases h58 : 58 ≤ decodeMarker m <;>
      simp [h58, openedAs, State.answered, State.setUp, State.winStep, openedUnpacker]
  · exact exec_upOpen_sized hf (hopen.trans (advanceSized_of_drop rfl hrest))

/-- Settles O31: the bit is read in the word that the advance leads to, which the words left decide. -/
theorem upRbitAdvancesAtTheWordEnd : Obligations.UpRbitAdvancesAtTheWordEnd := by
  intro s hf ho hpos readAs
  have hread {t : State} := exec_upRbit_of_advance (t := t) hf ho (hp := by omega)
  refine ⟨fun hm hfin hd => ?_, fun m hm hfin hd hr h58 => ?_, fun m hm hfin hd hr h58 => ?_,
    fun m x rest hm hfin hd hr => ?_, fun m rest hm hr => ?_⟩
  · exact hread (fun _ => hfin) ((advance_of_sized hm).trans (advanceSized_of_srcDone hd)) rfl
  · refine (hread (fun _ => hfin) ((advance_of_sized hm).trans (advanceSized_of_drop hd hr)) ?_).trans ?_
    · simp [h58]
    · simp [h58, readAs, State.atPos, State.answered, State.setUp, State.winStep]
  · have h58 : ¬58 ≤ decodeMarker m := by omega
    refine (hread (fun _ => hfin) ((advance_of_sized hm).trans (advanceSized_of_drop hd hr)) ?_).trans ?_
    · simp [h58]
    · simp [h58, readAs, State.atPos, State.answered, State.setUp, State.winStep]
  · rw [hread (fun _ => hfin) ((advance_of_sized hm).trans (advanceSized_of_drop hd hr)) rfl]
    simp [readAs, hd, State.atPos, State.answered, State.setUp, State.winStep]
  · refine hread (fun h => ?_) ((advance_of_unsized hm).trans (advanceUnsized_of_drop hr)) rfl
    rw [hm] at h
    cases h

/-- Settles O33: the second word is the promoted lookahead or the word popped. -/
theorem upRfldStraddlesTwoWords : Obligations.UpRfldStraddlesTwoWords := by
  intro s count hf ho h64 hp hgt rem data
  have hc : badCount count = false := badCount_eq_false.mpr ⟨by omega, h64⟩
  have hread {t : State} := exec_upRfld_of_advance (t := t) hf ho hc (hp := hp) (hgt := hgt)
  refine ⟨fun hm hfin hd hrem => ?_, fun w rest hm hr => ?_⟩
  · exact hread (fun _ => hfin) ((advance_of_sized hm).trans (advanceSized_of_srcDone hd))
      fun _ _ => hrem
  · have hsized : s.up.mode ≠ .sized := by rw [hm]; decide
    exact hread (fun h => absurd h hsized) ((advance_of_unsized hm).trans (advanceUnsized_of_drop hr))
      fun h => absurd h hsized

/-- Settles O30: below 64 the read does not advance. -/
theorem upRbitReadsInsideTheWord : Obligations.UpRbitReadsInsideTheWord := by
  intro s hf ho hp hvalid
  have hbit := readBit_of_lazyAdvance (lazyAdvance_of_lt hp)
  rw [dataOfBool_getLsbD] at hbit
  exact exec_upRbit_of_readBit hf ho (sizedEof_eq_false.mpr hvalid) hbit

/-- Settles O32: below 64 the read does not advance, and the field ends in the same word. -/
theorem upRfldReadsInsideTheWord : Obligations.UpRfldReadsInsideTheWord := by
  intro s count hf ho h1 hp hle hvalid
  refine exec_upRfld_of_readField (t := s.atPos (s.up.pos + count.toNat)) hf ho
    (badCount_eq_false.mpr ⟨h1, by omega⟩)
    (sizedEof_eq_false.mpr fun hm hfin => by have := hvalid hm hfin; omega) ?_
  rw [readField_of_lazyAdvance (fieldLazyAdvance_of_lt hp), extractField_of_le hle, low_shiftRight]
  exact finishField_eq_reply (overrun_eq_false.mpr hvalid)

/-- Settles O34: the queries answer the conditions of R166 and the position. -/
theorem unpackerQueriesAnswer : Obligations.UnpackerQueriesAnswer := by
  intro s hf ho
  refine ⟨?_, ?_, exec_upPos_of_opened hf ho⟩
  · rw [exec_upGood_of_opened hf ho]
    simp [dataOfBool, Unpacker.good]
  · rw [exec_upEof_of_opened hf ho]
    simp [dataOfBool, Unpacker.eof]

end Sys2Proof.Machine
end

section
/-! PROOFS. The unpacker as a reader of bits (spec 42_unpacker.md R161 to R164, R168, R170 (a)): the bits left are
those of the current word and the later ones; an advance drops the former, a move inside the word drops as many as
it passes, and every read is made of these two. -/

namespace Sys2Proof.Machine

open Config

/-! ### The bits of the current word and the later ones -/

/-- An open unpacker in a legal state (R38). -/
structure OpenReader (s : State) : Prop where
  inv : s.UnpackerInv
  opened : s.up.state = .opened

theorem Readable.openReader {s : State} (h : Readable s) : OpenReader s := ⟨h.inv, h.opened⟩

/-- Where the payload of the current word ends: at `valid` on the final word of a sized stream (R34), else at the
end of the word. -/
def Unpacker.wordEnd (u : Unpacker) : Nat := if u.mode = .sized ∧ u.final = true then u.valid else 64

/-- The bits left in the current word. -/
def Unpacker.wordBits (u : Unpacker) : List Bool := (fieldBits u.cur u.wordEnd).drop u.pos

/-- The bits after those of the current word. -/
def State.laterBits (s : State) : List Bool :=
  match s.up.mode, s.up.final with
  | .sized, true => []
  | .sized, false => sizedBits (s.up.next :: s.win.drop s.winRd)
  | .unsized, _ => unsizedBits (s.win.drop s.winRd)

theorem wordEnd_of_final {u : Unpacker} (hm : u.mode = .sized) (hf : u.final = true) :
    u.wordEnd = u.valid := if_pos ⟨hm, hf⟩

theorem wordEnd_of_not_final {u : Unpacker} (h : u.mode = .sized → u.final = false) :
    u.wordEnd = 64 := by
  refine if_neg fun ⟨hm, hf⟩ => ?_
  rw [h hm] at hf
  cases hf

@[simp] theorem wordBits_length (u : Unpacker) : u.wordBits.length = u.wordEnd - u.pos := by
  simp [Unpacker.wordBits]

/-- A word whose payload ends before bit 63 is the final one. -/
theorem laterBits_of_wordEnd_lt {s : State} (h : s.up.wordEnd < 64) : s.laterBits = [] := by
  have hfin : s.up.mode = .sized ∧ s.up.final = true := by
    by_contra hn
    rw [Unpacker.wordEnd, if_neg hn] at h
    omega
  obtain ⟨hm, hf⟩ := hfin
  simp [State.laterBits, hm, hf]

namespace OpenReader

variable {s : State}

/-- The read position lies within the payload of the current word, and that within the word (R38). -/
theorem wordEnd_bounds (h : OpenReader s) : s.up.pos ≤ s.up.wordEnd ∧ s.up.wordEnd ≤ 64 := by
  obtain ⟨⟨-, hread, hfin, huns⟩, ho⟩ := h
  cases hm : s.up.mode with
  | unsized =>
    obtain ⟨hp, -⟩ := huns ho hm
    rw [wordEnd_of_not_final fun h => by rw [hm] at h; cases h]
    exact ⟨hp, le_rfl⟩
  | sized =>
    cases hf : s.up.final with
    | false =>
      obtain ⟨hp, -⟩ := hread ho hm hf
      rw [wordEnd_of_not_final fun _ => hf]
      exact ⟨hp, le_rfl⟩
    | true =>
      have hinv := hfin ho hm hf
      obtain ⟨hp, -⟩ := id hinv
      rw [wordEnd_of_final hm hf]
      exact ⟨hp, finalInv_valid_le hinv⟩

theorem wordEnd_le (h : OpenReader s) : s.up.wordEnd ≤ 64 := h.wordEnd_bounds.2

theorem bitsLeft_eq (h : OpenReader s) : s.bitsLeft = s.up.wordBits ++ s.laterBits := by
  obtain ⟨⟨-, hread, -, -⟩, ho⟩ := h
  cases hm : s.up.mode with
  | unsized =>
    rw [bitsLeft_unsized hm, Unpacker.wordBits,
      wordEnd_of_not_final fun h => by rw [hm] at h; cases h]
    simp only [State.laterBits, hm]
  | sized =>
    cases hf : s.up.final with
    | false =>
      rw [bitsLeft_reading hm hf (hread ho hm hf), Unpacker.wordBits, wordEnd_of_not_final fun _ => hf]
      simp only [State.laterBits, hm, hf]
    | true =>
      rw [bitsLeft_final hm hf, Unpacker.wordBits, wordEnd_of_final hm hf]
      simp only [State.laterBits, hm, hf, List.append_nil]

theorem bitsLeft_length (h : OpenReader s) :
    s.bitsLeft.length = s.up.wordEnd - s.up.pos + s.laterBits.length := by
  rw [h.bitsLeft_eq, List.length_append, wordBits_length]

/-- The next bits, as long as they lie in the current word. -/
theorem bitsLeft_take (h : OpenReader s) {n : Nat} (hn : s.up.pos + n ≤ s.up.wordEnd) :
    s.bitsLeft.take n = fieldBits (s.up.cur >>> s.up.pos) n := by
  rw [h.bitsLeft_eq, List.take_append_of_le_length (by rw [wordBits_length]; omega),
    Unpacker.wordBits, fieldBits_drop _ _ _ (by omega), fieldBits_take _ _ _ (by omega)]

end OpenReader

theorem Readable.pos_lt_wordEnd {s : State} (h : Readable s) : s.up.pos < s.up.wordEnd := by
  unfold Unpacker.wordEnd
  split
  case isTrue hfin =>
    obtain ⟨hm, hf⟩ := hfin
    exact h.notAtEnd hm hf
  case isFalse => exact h.inWord

/-- The next bit of a readable word is the one at the position (R163). -/
theorem Readable.bitsLeft_eq_cons {s : State} (h : Readable s) :
    s.bitsLeft = s.up.cur.getLsbD s.up.pos :: s.bitsLeft.drop 1 := by
  have hbit : s.bitsLeft.take 1 = [s.up.cur.getLsbD s.up.pos] := by
    rw [h.openReader.bitsLeft_take h.pos_lt_wordEnd]
    simp [fieldBits]
  rw [← List.singleton_append, ← hbit, List.take_append_drop]

/-! ### The end of the stream -/

theorem sizedBits_ne_nil (w : Word) (ws : List Word) : sizedBits (w :: ws) ≠ [] := by
  refine List.ne_nil_of_length_pos ?_
  match ws with
  | [] =>
    rw [sizedBits, fieldBits_length]
    exact decodeMarker_pos w
  | [m] =>
    have hm := decodeMarker_pos m
    by_cases h58 : decodeMarker m < 58
    · rw [sizedBits_pair_below h58, List.length_append, fieldBits_length]
      omega
    · rw [sizedBits_pair_extra (by omega), fieldBits_length]
      exact hm
  | x :: y :: rest =>
    rw [sizedBits_cons (by simp), List.length_append, fieldBits_length]
    omega

/-- `eof` is the end of a sized stream (R166, R38 (f)): before the final word, its bits are still to come. -/
theorem OpenReader.eof_iff {s : State} (h : OpenReader s) :
    s.up.eof = true ↔ s.up.mode = .sized ∧ s.bitsLeft = [] := by
  obtain ⟨⟨-, hread, -, huns⟩, ho⟩ := h
  cases hm : s.up.mode with
  | unsized =>
    obtain ⟨-, hf, -⟩ := huns ho hm
    simp [Unpacker.eof, hf]
  | sized =>
    cases hf : s.up.final with
    | false =>
      rw [bitsLeft_reading hm hf (hread ho hm hf)]
      simp [Unpacker.eof, hf, sizedBits_ne_nil]
    | true =>
      rw [bitsLeft_final hm hf]
      simp [Unpacker.eof, hf]

theorem OpenReader.sizedEof_of_bitsLeft {s : State} (h : OpenReader s) (hne : s.bitsLeft ≠ []) :
    s.up.sizedEof = false := by
  have heof : ¬s.up.eof = true := fun he => by
    obtain ⟨-, hnil⟩ := h.eof_iff.mp he
    exact hne hnil
  simp [Unpacker.sizedEof, heof]

/-! ### Consuming bits -/

/-- From `s` to `t` the next `n` bits, all of them there, have been read, in whatever way: the stream goes on after
them in the same mode, and nothing but the unpacker and `WIN.rd` has changed. -/
structure Consumed (n : Nat) (s t : State) : Prop where
  frame : t = { s with up := t.up, winRd := t.winRd }
  reader : OpenReader t
  mode : t.up.mode = s.up.mode
  enough : n ≤ s.bitsLeft.length
  bitsLeft : t.bitsLeft = s.bitsLeft.drop n

theorem Consumed.refl {s : State} (h : OpenReader s) : Consumed 0 s s :=
  ⟨rfl, h, rfl, Nat.zero_le _, rfl⟩

theorem Consumed.trans {m n : Nat} {s t u : State} (h : Consumed m s t) (h' : Consumed n t u) :
    Consumed (m + n) s u := by
  refine ⟨?_, h'.reader, h'.mode.trans h.mode, ?_, ?_⟩
  · rw [h'.frame, h.frame]
  · have hm := h.enough
    have hn := h'.enough
    rw [h.bitsLeft, List.length_drop] at hn
    omega
  · rw [h'.bitsLeft, h.bitsLeft, List.drop_drop]

theorem Consumed.fault {n : Nat} {s t : State} (h : Consumed n s t) : t.fault = s.fault := by
  rw [h.frame]

theorem Consumed.responses {n : Nat} {s t : State} (h : Consumed n s t) :
    t.responses = s.responses := by
  rw [h.frame]

/-- With its response, a command that consumed bits has changed nothing else either. -/
theorem Consumed.sameButUnpacker {n : Nat} {s t : State} (h : Consumed n s t) (st : Byte) (d : Word) :
    SameButUnpacker s (t.answered st d) := by
  rw [h.frame]
  rfl

/-- Moving the position inside the payload of the current word consumes the bits it passes. -/
theorem Readable.consumed_atPos {s : State} (h : Readable s) {n : Nat}
    (hn : s.up.pos + n ≤ s.up.wordEnd) : Consumed n s (s.atPos (s.up.pos + n)) := by
  have hr := h.openReader
  have h64 := hr.wordEnd_le
  have hinv : (s.atPos (s.up.pos + n)).UnpackerInv := by
    refine h.setPos (by omega) fun hm hf => ?_
    rwa [← wordEnd_of_final hm hf]
  have hreader : OpenReader (s.atPos (s.up.pos + n)) := ⟨hinv, h.opened⟩
  have hword : (s.atPos (s.up.pos + n)).up.wordBits = s.up.wordBits.drop n := by
    rw [Unpacker.wordBits, Unpacker.wordBits, List.drop_drop]
    rfl
  have hlen : n ≤ s.up.wordBits.length := by rw [wordBits_length]; omega
  refine ⟨rfl, hreader, rfl, ?_, ?_⟩
  · rw [hr.bitsLeft_length]
    omega
  · rw [hreader.bitsLeft_eq, hword, hr.bitsLeft_eq, List.drop_append_of_le_length hlen]
    rfl

/-- An advance drops the bits left in the current word; without later bits it faults (R162). -/
theorem OpenReader.advance_cases {s : State} (h : OpenReader s)
    (hnf : s.up.mode = .sized → s.up.final = false) :
    (s.laterBits = [] ∧ ∃ c, advance s = .error (.raise c)) ∨
    ∃ t, advance s = .ok t ∧ Consumed s.up.wordBits.length s t ∧ Readable t ∧ t.up.pos = 0 := by
  have hlater : s.laterBits = s.bitsLeft.drop s.up.wordBits.length := by
    rw [h.bitsLeft_eq, List.drop_left]
  have hle : s.up.wordBits.length ≤ s.bitsLeft.length := by
    rw [h.bitsLeft_eq, List.length_append]
    omega
  have hkeeps := advance_keeps h.inv h.opened hnf
  obtain ⟨⟨-, hread, -, huns⟩, ho⟩ := h
  cases hm : s.up.mode with
  | sized =>
    have hf := hnf hm
    obtain ⟨t, e, hframe, htm, -, -, -, -, hbits⟩ := advance_reading hm hf (hread ho hm hf)
    rw [e] at hkeeps
    obtain ⟨hreadable, hp⟩ := hkeeps
    refine .inr ⟨t, e, ⟨hframe, hreadable.openReader, htm.trans hm.symm, hle, ?_⟩, hreadable, hp⟩
    rw [hbits, ← hlater]
    simp only [State.laterBits, hm, hf]
  | unsized =>
    rcases advance_unsized hm (huns ho hm) with ⟨hr, e⟩ | ⟨t, e, hframe, htm, -, -, -, hbits⟩
    · refine .inl ⟨?_, _, e⟩
      simp only [State.laterBits, hm, hr]
      rfl
    · rw [e] at hkeeps
      obtain ⟨hreadable, hp⟩ := hkeeps
      refine .inr ⟨t, e, ⟨hframe, hreadable.openReader, htm.trans hm.symm, hle, ?_⟩, hreadable, hp⟩
      rw [hbits, ← hlater]
      simp only [State.laterBits, hm]

/-- So does the advance of a field read, which faults on the final word of a sized stream (R164 (i)). -/
theorem OpenReader.fieldAdvance_cases {s : State} (h : OpenReader s) :
    (s.laterBits = [] ∧ ∃ c, fieldAdvance s = .error (.raise c)) ∨
    ∃ t, fieldAdvance s = .ok t ∧ Consumed s.up.wordBits.length s t ∧ Readable t ∧ t.up.pos = 0 := by
  by_cases hfin : s.up.mode = .sized ∧ s.up.final = true
  · obtain ⟨hm, hf⟩ := hfin
    exact .inl ⟨by simp [State.laterBits, hm, hf], _, fieldAdvance_of_final hm hf⟩
  · have hnf : s.up.mode = .sized → s.up.final = false := by simpa using hfin
    rw [fieldAdvance_of_not_final hnf]
    exact h.advance_cases hnf

/-- An advance of a field read that succeeds is an advance, from a word that is payload to its end. -/
theorem advance_of_fieldAdvance {s t : State} (h : fieldAdvance s = .ok t) :
    advance s = .ok t ∧ (s.up.mode = .sized → s.up.final = false) := by
  have hnf : s.up.mode = .sized → s.up.final = false := fun hm => by
    by_contra hf
    rw [fieldAdvance_of_final hm (by simpa using hf)] at h
    cases h
  exact ⟨fieldAdvance_of_not_final hnf ▸ h, hnf⟩

/-- The advance that a read begins with consumes nothing and leaves a word with a bit to read; it faults only where
there is no bit left (R163, R164). -/
theorem OpenReader.lazyAdvance_cases {s : State} (h : OpenReader s) (he : s.up.sizedEof = false) :
    (s.bitsLeft = [] ∧ ∃ c, fieldLazyAdvance s = .error (.raise c)) ∨
    ∃ t, lazyAdvance s = .ok t ∧ fieldLazyAdvance s = .ok t ∧ Consumed 0 s t ∧ Readable t := by
  obtain ⟨hpos, h64⟩ := h.wordEnd_bounds
  by_cases hp : s.up.pos < 64
  · exact .inr ⟨s, lazyAdvance_of_lt hp, fieldLazyAdvance_of_lt hp, .refl h,
      ⟨h.inv, h.opened, hp, sizedEof_eq_false.mp he⟩⟩
  · have hp : 64 ≤ s.up.pos := by omega
    have hword : s.up.wordBits.length = 0 := by rw [wordBits_length]; omega
    rw [lazyAdvance_of_ge hp, fieldLazyAdvance_of_ge hp]
    rcases h.fieldAdvance_cases with ⟨hlater, hc⟩ | ⟨t, e, hcons, hread, -⟩
    · refine .inl ⟨?_, hc⟩
      rw [h.bitsLeft_eq, hlater, List.eq_nil_of_length_eq_zero hword, List.nil_append]
    · obtain ⟨hadv, -⟩ := advance_of_fieldAdvance e
      exact .inr ⟨t, hadv, e, hword ▸ hcons, hread⟩

/-! ### Reading a bit -/

/-- A bit read returns the next bit and leaves the rest (R163). -/
theorem OpenReader.exec_upRbit {s : State} (h : OpenReader s) (hf : s.fault = false) {b : Bool}
    {rest : List Bool} (hb : s.bitsLeft = b :: rest) :
    ∃ t, exec .upRbit s = .next (t.answered 0 (dataOfBool b)) ∧ Consumed 1 s t := by
  have he := h.sizedEof_of_bitsLeft (by rw [hb]; simp)
  rcases h.lazyAdvance_cases he with ⟨hnil, -⟩ | ⟨t, hlazy, -, hcons, hread⟩
  · rw [hnil] at hb
    cases hb
  · have hbit := hread.bitsLeft_eq_cons
    rw [hcons.bitsLeft, List.drop_zero, hb] at hbit
    obtain ⟨rfl, -⟩ := List.cons.inj hbit
    refine ⟨_, exec_upRbit_of_readBit hf h.opened he (readBit_of_lazyAdvance hlazy), ?_⟩
    simpa using hcons.trans (hread.consumed_atPos hread.pos_lt_wordEnd)

/-! ### Reading a field -/

/-- The state that a field read of `n` bits leaves, from a readable word: the position moved inside the payload of
that word, or moved into the next after an advance (R164). -/
inductive FieldEnd (s : State) : Nat → State → Prop where
  | inside {n : Nat} (hn : s.up.pos + n ≤ s.up.wordEnd) : FieldEnd s n (s.atPos (s.up.pos + n))
  | across {u : State} {r : Nat} (h1 : 1 ≤ r) (hu : fieldAdvance s = .ok u)
      (hr : r ≤ u.up.wordEnd) : FieldEnd s (64 - s.up.pos + r) (u.atPos r)

/-- What the advance across the end of a readable word leaves: the next word, at its first bit. -/
theorem Readable.of_fieldAdvance {s u : State} (h : Readable s) (hu : fieldAdvance s = .ok u) :
    Consumed (64 - s.up.pos) s u ∧ Readable u ∧ u.up.pos = 0 := by
  obtain ⟨-, hnf⟩ := advance_of_fieldAdvance hu
  rcases h.openReader.fieldAdvance_cases with ⟨-, c, e⟩ | ⟨t, e, hcons, hread, hp⟩ <;>
    rw [e] at hu <;> cases hu
  rw [wordBits_length, wordEnd_of_not_final hnf] at hcons
  exact ⟨hcons, hread, hp⟩

/-- The next bits across the end of a readable word (R164). -/
theorem Readable.bitsLeft_take_across {s u : State} (h : Readable s) (hu : fieldAdvance s = .ok u)
    {r : Nat} (hr : r ≤ u.up.wordEnd) : s.bitsLeft.take (64 - s.up.pos + r) =
      fieldBits (s.up.cur >>> s.up.pos) (64 - s.up.pos) ++ fieldBits u.up.cur r := by
  obtain ⟨hcons, hread, hp⟩ := h.of_fieldAdvance hu
  obtain ⟨-, hnf⟩ := advance_of_fieldAdvance hu
  have hend : s.up.wordEnd = 64 := wordEnd_of_not_final hnf
  have hlt := h.inWord
  have hfirst := h.openReader.bitsLeft_take (n := 64 - s.up.pos) (by omega)
  have hrest := hread.openReader.bitsLeft_take (n := r) (by omega)
  rw [hp, BitVec.ushiftRight_zero, hcons.bitsLeft] at hrest
  rw [List.take_add, hfirst, hrest]

theorem FieldEnd.consumed {s t : State} {n : Nat} (h : Readable s) (ht : FieldEnd s n t) :
    Consumed n s t := by
  cases ht with
  | inside hn => exact h.consumed_atPos hn
  | @across u r _ hu hr =>
    obtain ⟨hcons, hread, hp⟩ := h.of_fieldAdvance hu
    have hmove := hread.consumed_atPos (n := r) (by omega)
    rw [hp, Nat.zero_add] at hmove
    exact hcons.trans hmove

theorem low_eq_wordOfBits (w : Word) (n : Nat) : low w n = wordOfBits (fieldBits w n) := by
  rw [low, wordOfBits, natOfBits_fieldBits]

/-- The join of two words is the word of the bits of both (R164). -/
theorem or_low_shiftLeft_eq_wordOfBits (cur next : Word) {p : Nat} (rem : Nat) (hp : p ≤ 64) :
    cur >>> p ||| low next rem <<< (64 - p) =
      wordOfBits (fieldBits (cur >>> p) (64 - p) ++ fieldBits next rem) := by
  have hlt := shiftRight_toNat_lt cur hp
  rw [or_shiftLeft_eq _ _ _ hlt, wordOfBits, natOfBits_append, natOfBits_fieldBits,
    natOfBits_fieldBits, fieldBits_length, low_toNat, Nat.mod_eq_of_lt hlt]

/-- A read position inside the word is no overrun as long as it lies within the payload (R164 (ii)). -/
theorem overrun_atPos {s : State} {p : Nat} (hp : p ≤ 64) :
    (s.atPos p).up.overrun = decide (s.up.wordEnd < p) := by
  by_cases hfin : s.up.mode = .sized ∧ s.up.final = true
  · obtain ⟨hm, hf⟩ := hfin
    simp [State.atPos, Unpacker.overrun, wordEnd_of_final hm hf, hm, hf]
  · have hov : (s.atPos p).up.overrun = false :=
      overrun_eq_false.mpr fun hm hf => absurd ⟨hm, hf⟩ hfin
    rw [hov, Unpacker.wordEnd, if_neg hfin, eq_comm, decide_eq_false_iff_not]
    omega

/-- The extraction of a field returns the next bits, if there are so many, and else faults (R164). -/
theorem Readable.extractField_cases {s : State} (h : Readable s) {n : Nat} (h64 : n ≤ 64) :
    (∃ t, FieldEnd s n t ∧ extractField n s = reply t (wordOfBits (s.bitsLeft.take n))) ∨
    (s.bitsLeft.length < n ∧ ∃ c, extractField n s = raise c) := by
  have hr := h.openReader
  have hlen := hr.bitsLeft_length
  have hlt := h.inWord
  obtain ⟨hpos, hend⟩ := hr.wordEnd_bounds
  by_cases hin : s.up.pos + n ≤ 64
  · rw [extractField_of_le hin]
    by_cases hn : s.up.pos + n ≤ s.up.wordEnd
    · refine .inl ⟨_, .inside hn, ?_⟩
      rw [finishField_eq_reply ((overrun_atPos hin).trans (decide_eq_false (by omega))), hr.bitsLeft_take hn,
        low_eq_wordOfBits]
    · rw [laterBits_of_wordEnd_lt (by omega), List.length_nil] at hlen
      exact .inr ⟨by omega, _, finishField_eq_raise ((overrun_atPos hin).trans (decide_eq_true (by omega)))⟩
  · have hgt : 64 < s.up.pos + n := by omega
    obtain ⟨r, rfl⟩ : ∃ r, n = 64 - s.up.pos + r := ⟨s.up.pos + n - 64, by omega⟩
    have hpast : s.up.pos + (64 - s.up.pos + r) - 64 = r := by omega
    rcases hr.fieldAdvance_cases with ⟨hlater, c, e⟩ | ⟨u, e, -⟩
    · rw [hlater, List.length_nil] at hlen
      exact .inr ⟨by omega, c, extractField_of_fieldAdvance_error hlt.le hgt e⟩
    rw [extractField_of_fieldAdvance hlt.le hgt e, hpast]
    by_cases hn : r ≤ u.up.wordEnd
    · refine .inl ⟨_, .across (by omega) e hn, ?_⟩
      rw [finishField_eq_reply ((overrun_atPos (by omega)).trans (decide_eq_false (by omega))),
        h.bitsLeft_take_across e hn, or_low_shiftLeft_eq_wordOfBits _ _ _ hlt.le]
    · obtain ⟨hcons, hread, hp⟩ := h.of_fieldAdvance e
      have hulen := hread.openReader.bitsLeft_length
      have huend := hread.openReader.wordEnd_le
      rw [hcons.bitsLeft, List.length_drop, hp, laterBits_of_wordEnd_lt (by omega),
        List.length_nil] at hulen
      exact .inr ⟨by omega, _,
        finishField_eq_raise ((overrun_atPos (by omega)).trans (decide_eq_true (by omega)))⟩

/-- Everything a field read can do once its operand and the end of the stream are checked (R164). -/
theorem OpenReader.readField_cases {s : State} (h : OpenReader s) (he : s.up.sizedEof = false)
    {n : Nat} (h1 : 1 ≤ n) (h64 : n ≤ 64) :
    (∃ t u, lazyAdvance s = .ok t ∧ Consumed 0 s t ∧ Readable t ∧ FieldEnd t n u ∧
      readField n s = reply u (wordOfBits (s.bitsLeft.take n))) ∨
    (s.bitsLeft.length < n ∧ ∃ c, readField n s = raise c) := by
  rcases h.lazyAdvance_cases he with ⟨hnil, c, e⟩ | ⟨t, hlazy, e, hcons, hread⟩
  · exact .inr ⟨by rw [hnil]; exact h1, c, by rw [readField, e]; rfl⟩
  · have hbits : t.bitsLeft = s.bitsLeft := hcons.bitsLeft
    rw [readField_of_lazyAdvance e, ← hbits]
    rcases hread.extractField_cases h64 with ⟨u, hu, e⟩ | hfault
    · exact .inl ⟨t, u, hlazy, hcons, hread, hu, e⟩
    · exact .inr hfault

/-- A field read returns the next bits and leaves the rest (R164). -/
theorem OpenReader.exec_upRfld {s : State} (h : OpenReader s) (hf : s.fault = false) {count : Byte}
    (hc : legalCount count = true) (hlen : count.toNat ≤ s.bitsLeft.length) :
    ∃ t, exec (.upRfld count) s =
        .next (t.answered 0 (wordOfBits (s.bitsLeft.take count.toNat))) ∧
      Consumed count.toNat s t := by
  obtain ⟨h1, h64⟩ := legalCount_iff.mp hc
  have he := h.sizedEof_of_bitsLeft (List.ne_nil_of_length_pos (by omega))
  rcases h.readField_cases he h1 h64 with ⟨t, u, -, hcons, hread, hu, e⟩ | ⟨hshort, -⟩
  · refine ⟨u, exec_upRfld_of_readField hf h.opened (badCount_eq_false.mpr ⟨h1, h64⟩) he e, ?_⟩
    simpa using hcons.trans (hu.consumed hread)
  · omega

/-! ### A field read as bit reads -/

/-- The state with these responses delivered too. -/
def State.withResponses (s : State) (rs : List RspWord) : State :=
  { s with responses := s.responses ++ rs }

theorem withResponses_append (s : State) (rs rs' : List RspWord) :
    s.withResponses (rs ++ rs') = (s.withResponses rs).withResponses rs' := by
  simp only [State.withResponses, List.append_assoc]

/-- The response of a bit read (R163, R104). -/
def bitResponse (b : Bool) : RspWord := response 0 (dataOfBool b)

theorem execAll_append {is : List Instr} (js : List Instr) {s t : State}
    (h : execAll is s = .next t) : execAll (is ++ js) s = execAll js t := by
  induction is generalizing s with
  | nil => cases h; rfl
  | cons i is ih =>
    cases hi : exec i s with
    | next u =>
      rw [execAll_cons _ hi] at h
      rw [List.cons_append, execAll_cons _ hi, ih h]
    | fault f =>
      rw [execAll, hi] at h
      cases h
    | refused r =>
      rw [execAll, hi] at h
      cases h

/-- A bit read inside the payload of the current word (R163). -/
theorem exec_upRbit_inside {s : State} (hf : s.fault = false) (ho : s.up.state = .opened)
    (h64 : s.up.wordEnd ≤ 64) (hp : s.up.pos < s.up.wordEnd) : exec .upRbit s =
      .next ((s.atPos (s.up.pos + 1)).answered 0 (dataOfBool (s.up.cur.getLsbD s.up.pos))) := by
  have he : s.up.sizedEof = false :=
    sizedEof_eq_false.mpr fun hm hfin => by rwa [wordEnd_of_final hm hfin] at hp
  exact exec_upRbit_of_readBit hf ho he (readBit_of_lazyAdvance (lazyAdvance_of_lt (by omega)))

/-- Bit reads inside the payload of the current word return its bits in order. -/
theorem execAll_upRbit_inside {s : State} (hf : s.fault = false) (ho : s.up.state = .opened)
    (h64 : s.up.wordEnd ≤ 64) {n : Nat} (hn : s.up.pos + n ≤ s.up.wordEnd) :
    execAll (List.replicate n .upRbit) s = .next ((s.atPos (s.up.pos + n)).withResponses
      ((fieldBits (s.up.cur >>> s.up.pos) n).map bitResponse)) := by
  induction n with
  | zero => simp [execAll, State.atPos, State.setUp, State.withResponses, fieldBits]
  | succ n ih =>
    have hfirst := ih (by omega)
    have hlast := exec_upRbit_inside (s := (s.atPos (s.up.pos + n)).withResponses
      ((fieldBits (s.up.cur >>> s.up.pos) n).map bitResponse)) hf ho h64
      (show s.up.pos + n < s.up.wordEnd by omega)
    rw [List.replicate_succ', execAll_append _ hfirst, execAll_cons _ hlast, fieldBits_succ,
      BitVec.getLsbD_ushiftRight, List.map_append, withResponses_append]
    rfl

/-- A bit read does the same before and after the advance that it begins with. -/
theorem exec_upRbit_eq_of_lazyAdvance {s t : State} (hs : s.fault = false)
    (hso : s.up.state = .opened) (hse : s.up.sizedEof = false) (h : lazyAdvance s = .ok t)
    (ht : t.fault = false) (hread : Readable t) : exec .upRbit s = exec .upRbit t := by
  rw [exec_upRbit_of_readBit hs hso hse (readBit_of_lazyAdvance h),
    exec_upRbit_inside ht hread.opened hread.openReader.wordEnd_le hread.pos_lt_wordEnd]

theorem execAll_upRbit_eq_of_lazyAdvance {s t : State} {n : Nat} (hn : 1 ≤ n)
    (h : exec .upRbit s = exec .upRbit t) :
    execAll (List.replicate n .upRbit) s = execAll (List.replicate n .upRbit) t := by
  obtain ⟨n, rfl⟩ := Nat.exists_eq_add_of_le' hn
  simp only [List.replicate_succ, execAll, h]

theorem advanceSized_atPos_withResponses {s t : State} (h : advanceSized s = .ok t) (p : Nat)
    (rs : List RspWord) :
    advanceSized ((s.atPos p).withResponses rs) = .ok (t.withResponses rs) := by
  cases hd : s.up.srcDone with
  | true =>
    rw [advanceSized_of_srcDone hd] at h
    cases h
    exact advanceSized_of_srcDone hd
  | false =>
    match hr : s.win.drop s.winRd with
    | [] =>
      have hpop : s.wordPop = none := wordPop_eq_none.mpr (winAtEnd_of_drop hr)
      simp [advanceSized, hd, hpop] at h
    | m :: rest =>
      rw [advanceSized_of_drop hd hr] at h
      cases h
      exact advanceSized_of_drop hd hr

theorem advanceUnsized_atPos_withResponses {s t : State} (h : advanceUnsized s = .ok t) (p : Nat)
    (rs : List RspWord) :
    advanceUnsized ((s.atPos p).withResponses rs) = .ok (t.withResponses rs) := by
  rcases advanceUnsized_cases s with ⟨-, e⟩ | ⟨m, rest, hr, -⟩
  · rw [e] at h
    cases h
  · rw [advanceUnsized_of_drop hr] at h
    cases h
    exact advanceUnsized_of_drop hr

/-- An advance depends on neither the position nor the responses. -/
theorem advance_atPos_withResponses {s t : State} (h : advance s = .ok t) (p : Nat)
    (rs : List RspWord) : advance ((s.atPos p).withResponses rs) = .ok (t.withResponses rs) := by
  cases hm : s.up.mode with
  | sized =>
    rw [advance_of_sized hm] at h
    rw [advance_of_sized (s := (s.atPos p).withResponses rs) hm]
    exact advanceSized_atPos_withResponses h p rs
  | unsized =>
    rw [advance_of_unsized hm] at h
    rw [advance_of_unsized (s := (s.atPos p).withResponses rs) hm]
    exact advanceUnsized_atPos_withResponses h p rs

/-- At the end of a readable word a bit read is one in the next word, at its start. -/
theorem Readable.exec_upRbit_at_end {s u : State} (h : Readable s) (hf : s.fault = false)
    (hu : fieldAdvance s = .ok u) (rs : List RspWord) :
    exec .upRbit ((s.atPos 64).withResponses rs) = exec .upRbit (u.withResponses rs) := by
  obtain ⟨hcons, ⟨hinv, ho, hlt, hvalid⟩, -⟩ := h.of_fieldAdvance hu
  obtain ⟨hadv, hnf⟩ := advance_of_fieldAdvance hu
  have hend : ((s.atPos 64).withResponses rs).up.sizedEof = false :=
    sizedEof_eq_false.mpr fun hm hfin => by
      change s.up.final = true at hfin
      rw [hnf hm] at hfin
      cases hfin
  exact exec_upRbit_eq_of_lazyAdvance hf h.opened hend
    ((lazyAdvance_of_ge le_rfl).trans (advance_atPos_withResponses hadv 64 rs))
    (hcons.fault.trans hf) ⟨hinv, ho, hlt, hvalid⟩

/-- As many bit reads lead to the state that the field read leaves, and return the same bits (R170 (a)). -/
theorem FieldEnd.execAll_upRbit {s t : State} {n : Nat} (h : Readable s) (hf : s.fault = false)
    (ht : FieldEnd s n t) : execAll (List.replicate n .upRbit) s =
      .next (t.withResponses ((s.bitsLeft.take n).map bitResponse)) := by
  have hr := h.openReader
  have h64 := hr.wordEnd_le
  cases ht with
  | inside hn => rw [execAll_upRbit_inside hf h.opened h64 hn, hr.bitsLeft_take hn]
  | @across u r h1 hu hn =>
    obtain ⟨hcons, hread, hp⟩ := h.of_fieldAdvance hu
    obtain ⟨-, hnf⟩ := advance_of_fieldAdvance hu
    have hend : s.up.wordEnd = 64 := wordEnd_of_not_final hnf
    have hpos : s.up.pos + (64 - s.up.pos) = 64 := by have := h.inWord; omega
    have hfirst := execAll_upRbit_inside hf h.opened h64 (n := 64 - s.up.pos) (by omega)
    rw [hpos] at hfirst
    have hrest := execAll_upRbit_inside (n := r)
      (s := u.withResponses ((fieldBits (s.up.cur >>> s.up.pos) (64 - s.up.pos)).map bitResponse))
      (hcons.fault.trans hf) hread.opened hread.openReader.wordEnd_le
      (by change u.up.pos + r ≤ u.up.wordEnd; omega)
    rw [List.replicate_add, execAll_append _ hfirst,
      execAll_upRbit_eq_of_lazyAdvance h1 (h.exec_upRbit_at_end hf hu _), hrest,
      h.bitsLeft_take_across hu hn, List.map_append, withResponses_append]
    change Host.Outcome.next (State.withResponses (State.withResponses (u.atPos (u.up.pos + r)) _)
      ((fieldBits (u.up.cur >>> u.up.pos) r).map bitResponse)) = _
    rw [hp, Nat.zero_add, BitVec.ushiftRight_zero]

/-- A field read that does not fault has passed its checks and read its bits (R164). -/
theorem OpenReader.upRfld_completed {s t : State} (h : OpenReader s) (hf : s.fault = false)
    {count : Byte} (ht : exec (.upRfld count) s = .next t) (htf : t.fault = false) :
    ∃ v u, lazyAdvance s = .ok v ∧ Consumed 0 s v ∧ Readable v ∧ FieldEnd v count.toNat u ∧
      1 ≤ count.toNat ∧ s.up.sizedEof = false ∧
      t = u.answered 0 (wordOfBits (s.bitsLeft.take count.toNat)) := by
  have hopen := isOpen_unpacker.mpr h.opened
  have hfaults {c : FaultCode} : exec (.upRfld count) s ≠ .next (takeFault c s) := fun hc => by
    rw [hc] at ht
    cases ht
    cases htf
  cases hc : badCount count with
  | true =>
    refine absurd ?_ (hfaults (c := .upBadCount))
    rw [exec, execUpRfld]
    exact command_raise hf (by rw [hopen, hc]; rfl)
  | false =>
    obtain ⟨h1, h64⟩ := badCount_eq_false.mp hc
    cases he : s.up.sizedEof with
    | true =>
      refine absurd ?_ (hfaults (c := .upReadAtEof))
      rw [exec, execUpRfld]
      exact command_raise hf (by rw [hopen, hc, he]; rfl)
    | false =>
      rcases h.readField_cases he h1 h64 with ⟨v, u, hlazy, hcons, hread, hu, e⟩ | ⟨-, c, e⟩
      · rw [exec_upRfld_of_readField hf h.opened hc he e] at ht
        cases ht
        exact ⟨v, u, hlazy, hcons, hread, hu, h1, rfl, rfl⟩
      · refine absurd ?_ (hfaults (c := c))
        rw [exec_upRfld_eq_conclude hf h.opened hc he, e]
        rfl

/-! ### The statements -/

/-- Settles O40, by the reads from an open reader. -/
theorem readsConsumeTheBitStream : Obligations.ReadsConsumeTheBitStream := by
  intro s hinv hf ho
  obtain ⟨-, hup, -⟩ := hinv
  have h : OpenReader s := ⟨hup, ho⟩
  refine ⟨fun b rest hb => ?_, fun count hc hlen => ?_⟩
  · obtain ⟨t, e, hcons⟩ := h.exec_upRbit hf hb
    refine ⟨_, e, ?_, hcons.sameButUnpacker _ _, congrArg (· ++ _) hcons.responses⟩
    change t.bitsLeft = rest
    rw [hcons.bitsLeft, hb]
    rfl
  · obtain ⟨t, e, hcons⟩ := h.exec_upRfld hf hc hlen
    exact ⟨_, e, hcons.bitsLeft, hcons.sameButUnpacker _ _, congrArg (· ++ _) hcons.responses⟩

/-- Settles O42: the field read and the bit reads begin with the same advance and end in the same state. -/
theorem fieldReadIsItsBitReads : Obligations.FieldReadIsItsBitReads := by
  intro s t count hinv hf ho ht htf
  obtain ⟨-, hup, -⟩ := hinv
  obtain ⟨v, u, hlazy, hcons, hread, hu, h1, he, rfl⟩ :=
    OpenReader.upRfld_completed ⟨hup, ho⟩ hf ht htf
  have hvf : v.fault = false := hcons.fault.trans hf
  have hbits : v.bitsLeft = s.bitsLeft := hcons.bitsLeft
  have hall := hu.consumed hread
  have hresp : u.responses = s.responses := hall.responses.trans hcons.responses
  have henough : count.toNat ≤ s.bitsLeft.length := hbits ▸ hall.enough
  have hreads := hu.execAll_upRbit hread hvf
  rw [← execAll_upRbit_eq_of_lazyAdvance h1
    (exec_upRbit_eq_of_lazyAdvance hf ho he hlazy hvf hread), hbits] at hreads
  refine ⟨_, s.bitsLeft.take count.toNat, ?_, hreads, rfl, ?_, ?_⟩
  · rw [List.length_take]
    omega
  · exact congrArg (· ++ _) hresp
  · exact congrArg (· ++ _) hresp

/-- Settles O39: what the open offers is the payload, by mode. -/
theorem upOpenOffersThePayload : Obligations.UpOpenOffersThePayload := by
  intro s _ hf
  refine ⟨?_, _, exec_upOpen_unsized hf, rfl, rfl⟩
  obtain ⟨t, e, hframe, -, -, -, -, -, hbits⟩ := openSized_inv s
  refine ⟨_, exec_upOpen_sized hf e, hbits, ?_⟩
  rw [hframe]
  rfl

/-- Settles O41: the answer is `eof`. -/
theorem eofMeansNoBitsLeft : Obligations.EofMeansNoBitsLeft := by
  intro s hinv hf ho
  obtain ⟨-, hup, -⟩ := hinv
  rw [exec_upEof_of_opened hf ho, dataOfBool]
  simp only [OpenReader.eof_iff ⟨hup, ho⟩]

end Sys2Proof.Machine
end

section
/-! PROOFS. The round trips (spec 42_unpacker.md R170 (b), (d)): fields written to a packer become the words of
their stream, and an unpacker over these words gives the fields back. -/

namespace Sys2Proof.Machine

open Config

/-! ### Fields -/

theorem bitsOfFields_cons (f : Field) (fs : List Field) :
    bitsOfFields (f :: fs) = fieldBits f.1 f.2.toNat ++ bitsOfFields fs := rfl

theorem bitsOfFields_cons_length (f : Field) (fs : List Field) :
    (bitsOfFields (f :: fs)).length = f.2.toNat + (bitsOfFields fs).length := by
  rw [bitsOfFields_cons, List.length_append, fieldBits_length]

theorem legalFields_cons {f : Field} {fs : List Field} :
    legalFields (f :: fs) ↔ legalCount f.2 = true ∧ legalFields fs := List.forall_mem_cons

/-! ### Writing -/

/-- A newly opened packer holds the empty stream (R121). -/
theorem holdsBits_opened (s : State) (nofin : Bool) :
    ((s.setPk { cur := 0, pos := 0, total := 0, emitted := false, finEn := !nofin,
                state := .opened }).answered 0 0).holdsBits s.wout [] := by
  refine ⟨rfl, ?_, rfl, rfl, rfl, by simp [State.answered]⟩
  rw [fullWords_of_lt (by simp), List.append_nil]
  rfl

/-- Field writes append the bits of the fields (R123, R129 (c)). -/
theorem execAll_writeFields {fs : List Field} {s : State} {base : List Word} {bits : List Bool}
    (hlegal : legalFields fs) (h : s.holdsBits base bits) (hf : s.fault = false)
    (hroom : bits.length + (bitsOfFields fs).length ≤ 2 ^ 64 - 1) :
    ∃ t, execAll (writeFields fs) s = .next t ∧ t.holdsBits base (bits ++ bitsOfFields fs) ∧
      t.fault = false ∧ t.pk.finEn = s.pk.finEn := by
  induction fs generalizing s bits with
  | nil => exact ⟨s, rfl, by rwa [bitsOfFields, List.flatMap_nil, List.append_nil], hf, rfl⟩
  | cons f fs ih =>
    obtain ⟨hcount, hrest⟩ := legalFields_cons.mp hlegal
    obtain ⟨h1, h64⟩ := legalCount_iff.mp hcount
    obtain ⟨ho, -, -, -, htotal, -⟩ := id h
    rw [bitsOfFields_cons_length] at hroom
    have hwrite := exec_pkWfld_eq f.1 hf ho h.belowPos h1 h64 (by omega)
    have hbits := h.append (f := fieldBits f.1 f.2.toNat) (by rw [fieldBits_length]; omega)
    obtain ⟨t, e, ht, htf, hfin⟩ := ih
      (s := (appendBits (fieldBits f.1 f.2.toNat) s).answered 0 0) hrest hbits hf
      (by rw [List.length_append, fieldBits_length]; omega)
    refine ⟨t, ?_, ?_, htf, hfin⟩
    · exact (execAll_cons _ hwrite).trans e
    · rwa [List.append_assoc] at ht

/-- Opening, writing and closing pushes the words of the stream (R94, R95, R126). -/
theorem execAll_pack {fs : List Field} {s : State} (nofin : Bool) (hlegal : legalFields fs)
    (hlen : (bitsOfFields fs).length ≤ 2 ^ 64 - 1) (hf : s.fault = false)
    (ho : s.pk.state ≠ .opened) :
    ∃ t, execAll (.pkOpen nofin :: writeFields fs ++ [.pkClose]) s = .next t ∧
      t.wout = s.wout ++
        if nofin then unfinalizedWords (bitsOfFields fs) else finalizedWords (bitsOfFields fs) := by
  have hopen := exec_pkOpen_of_not_opened nofin hf ho
  obtain ⟨t, e, ht, htf, hfin⟩ := execAll_writeFields hlegal (holdsBits_opened s nofin) hf
    (by simpa using hlen)
  obtain ⟨u, eu, -, hwout, -⟩ := closeCompletesTheStream t s.wout _ htf ht
  refine ⟨u, ?_, ?_⟩
  · rw [List.cons_append, execAll_cons _ hopen, execAll_append _ e, execAll_cons _ eu]
    rfl
  · have hfin : t.pk.finEn = !nofin := hfin
    rw [hwout, hfin, List.nil_append]
    cases nofin <;> rfl

/-! ### Reading back -/

/-- The answer of `UP_EOF`: 1 if a sized stream has no bit left (R168). -/
def eofAnswer (mode : UpMode) (bits : List Bool) : Word :=
  if mode = .sized ∧ bits = [] then 1 else 0

theorem eofAnswer_of_ne_nil (mode : UpMode) {bits : List Bool} (h : bits ≠ []) :
    eofAnswer mode bits = 0 := if_neg fun ⟨_, hnil⟩ => h hnil

theorem OpenReader.exec_upEof {s : State} (h : OpenReader s) (hf : s.fault = false) :
    exec .upEof s = .next (s.answered 0 (eofAnswer s.up.mode s.bitsLeft)) := by
  rw [exec_upEof_of_opened hf h.opened, dataOfBool, eofAnswer]
  simp only [h.eof_iff]

/-- A response takes no bit. -/
@[simp] theorem bitsLeft_answered (s : State) (st : Byte) (d : Word) :
    (s.answered st d).bitsLeft = s.bitsLeft := rfl

theorem OpenReader.answered {s : State} (h : OpenReader s) (st : Byte) (d : Word) :
    OpenReader (s.answered st d) := ⟨h.inv, h.opened⟩

theorem readBack_cons (f : Field) (fs : List Field) :
    readBack (f :: fs) = [.upEof, .upRfld f.2] ++ readBack fs := rfl

theorem readBackResponses_cons (f : Field) (fs : List Field) (atEnd : Word) :
    readBackResponses (f :: fs) atEnd =
      [response 0 0, response 0 (BitVec.ofNat 64 (f.1.toNat % 2 ^ f.2.toNat))] ++
        readBackResponses fs atEnd := rfl

/-- The test and the read of a field whose bits come next: the end is not reported, and the field comes back (R164,
R168). -/
theorem OpenReader.execAll_readField {s : State} (h : OpenReader s) (hf : s.fault = false)
    {f : Field} (hc : legalCount f.2 = true) {rest : List Bool}
    (hbits : s.bitsLeft = fieldBits f.1 f.2.toNat ++ rest) :
    ∃ t, execAll [.upEof, .upRfld f.2] s = .next t ∧ OpenReader t ∧ t.fault = false ∧
      t.up.mode = s.up.mode ∧ t.bitsLeft = rest ∧ t.responses = s.responses ++
        [response 0 0, response 0 (BitVec.ofNat 64 (f.1.toNat % 2 ^ f.2.toNat))] := by
  have hlen : (fieldBits f.1 f.2.toNat).length = f.2.toNat := fieldBits_length _ _
  have henough : f.2.toNat ≤ s.bitsLeft.length := by rw [hbits, List.length_append]; omega
  obtain ⟨h1, -⟩ := legalCount_iff.mp hc
  have heof := h.exec_upEof hf
  rw [eofAnswer_of_ne_nil _ (List.ne_nil_of_length_pos (by omega))] at heof
  obtain ⟨t, e, hcons⟩ := (h.answered 0 0).exec_upRfld hf hc henough
  rw [bitsLeft_answered, hbits, List.take_left' hlen, wordOfBits, natOfBits_fieldBits] at e
  refine ⟨_, (execAll_cons _ heof).trans (execAll_cons [] e), hcons.reader.answered _ _,
    hcons.fault.trans hf, hcons.mode, ?_, ?_⟩
  · rw [bitsLeft_answered, hcons.bitsLeft, bitsLeft_answered, hbits, List.drop_left' hlen]
  · change t.responses ++ _ = _
    rw [hcons.responses, State.answered, List.append_assoc]
    rfl

/-- An open reader whose bits begin with those of the fields gives the fields back, and reports the end after them if
no bits follow (R164, R168). -/
theorem OpenReader.execAll_readBack {fs : List Field} {s : State} (h : OpenReader s)
    (hf : s.fault = false) (hlegal : legalFields fs) {tail : List Bool}
    (hbits : s.bitsLeft = bitsOfFields fs ++ tail) :
    ∃ t, execAll (readBack fs) s = .next t ∧ t.fault = false ∧
      t.responses = s.responses ++ readBackResponses fs (eofAnswer s.up.mode tail) := by
  induction fs generalizing s with
  | nil =>
    have heof := h.exec_upEof hf
    rw [hbits] at heof
    exact ⟨_, execAll_cons [] heof, hf, rfl⟩
  | cons f fs ih =>
    obtain ⟨hcount, hrest⟩ := legalFields_cons.mp hlegal
    rw [bitsOfFields_cons, List.append_assoc] at hbits
    obtain ⟨t, e, ht, htf, hmode, hleft, hresp⟩ := h.execAll_readField hf hcount hbits
    obtain ⟨u, eu, huf, huresp⟩ := ih ht htf hrest hleft
    refine ⟨u, ?_, huf, ?_⟩
    · rw [readBack_cons, execAll_append _ e, eu]
    · rw [huresp, hresp, hmode, readBackResponses_cons, List.append_assoc]

/-- The mode that `UP_OPEN` selects (R161). -/
def openMode (unsized : Bool) : UpMode := if unsized then .unsized else .sized

/-- The bits of a word list as they are read in a mode (R93, R95). -/
def modeBits : UpMode → List Word → List Bool
  | .sized => sizedBits
  | .unsized => unsizedBits

/-- The open gives a reader of the bits of the words left (R161). -/
theorem exec_upOpen_reader (unsized : Bool) {s : State} (hf : s.fault = false) :
    ∃ t, exec (.upOpen unsized) s = .next (t.answered 0 0) ∧ OpenReader t ∧ t.fault = false ∧
      t.up.mode = openMode unsized ∧
      t.bitsLeft = modeBits (openMode unsized) (s.win.drop s.winRd) ∧ t.responses = s.responses := by
  cases unsized with
  | true => exact ⟨_, exec_upOpen_unsized hf, ⟨openUnsized_inv s, rfl⟩, hf, rfl, rfl, rfl⟩
  | false =>
    obtain ⟨t, e, hframe, hm, ho, -, hread, hfin, hbits⟩ := openSized_inv s
    have hfault : t.fault = s.fault := by rw [hframe]
    have hresp : t.responses = s.responses := by rw [hframe]
    exact ⟨t, exec_upOpen_sized hf e, ⟨unpackerInv_sized ho hm hread hfin, ho⟩, hfault.trans hf, hm,
      hbits, hresp⟩

/-- Opened over words whose bits begin with those of the fields, the unpacker gives the fields back. -/
theorem execAll_open_readBack (unsized : Bool) {fs : List Field} {s : State} (hf : s.fault = false)
    (hlegal : legalFields fs) {tail : List Bool}
    (hbits : modeBits (openMode unsized) (s.win.drop s.winRd) = bitsOfFields fs ++ tail) :
    ∃ t, execAll (.upOpen unsized :: readBack fs) s = .next t ∧ t.fault = false ∧
      t.responses = s.responses ++
        response 0 0 :: readBackResponses fs (eofAnswer (openMode unsized) tail) := by
  obtain ⟨t, eopen, ht, htf, hm, hleft, hresp⟩ := exec_upOpen_reader unsized hf
  obtain ⟨u, eu, huf, huresp⟩ := (ht.answered 0 0).execAll_readBack htf hlegal (hleft.trans hbits)
  refine ⟨u, (execAll_cons _ eopen).trans eu, huf, ?_⟩
  rw [huresp, ← hm, ← hresp, List.append_cons]
  rfl

/-- The words of an unfinalized stream hold the stream and then the padding of the last one (R95). -/
theorem unsizedBits_unfinalizedWords (bits : List Bool) :
    ∃ padding, unsizedBits (unfinalizedWords bits) = bits ++ padding := by
  have hall := unsizedBits_fullWords_append_tailBits bits
  by_cases h0 : bits.length % 64 = 0
  · have htail : tailBits bits = [] := List.eq_nil_of_length_eq_zero ((tailBits_length bits).trans h0)
    refine ⟨[], ?_⟩
    rwa [unfinalizedWords, if_pos h0, List.append_nil, ← List.append_nil (unsizedBits _), ← htail]
  · have hsplit := fieldBits_add (wordOfBits (tailBits bits)) (bits.length % 64)
      (64 - bits.length % 64)
    rw [fieldBits_wordOfBits_tailBits, Nat.add_sub_cancel' (by omega)] at hsplit
    obtain ⟨padding, hlast⟩ :
        ∃ padding, fieldBits (wordOfBits (tailBits bits)) 64 = tailBits bits ++ padding :=
      ⟨_, hsplit⟩
    refine ⟨padding, ?_⟩
    calc unsizedBits (unfinalizedWords bits)
        = unsizedBits (fullWords bits) ++ fieldBits (wordOfBits (tailBits bits)) 64 := by
          rw [unfinalizedWords, if_neg h0, unsizedBits_append, unsizedBits_cons]
          exact congrArg _ (List.append_nil _)
      _ = bits ++ padding := by rw [hlast, ← List.append_assoc, hall]

/-! ### The statements -/

/-- Settles O58: the words pushed are those of the finalized stream, whose sized reading is the stream. -/
theorem finalizedRoundTrip : Obligations.FinalizedRoundTrip := by
  intro fs s hlegal hlen hf ho
  obtain ⟨t, e, hwout⟩ := execAll_pack false hlegal hlen hf ho
  refine ⟨t, _, e, hwout, fun u _ huf hwin => ?_⟩
  refine execAll_open_readBack false huf hlegal (tail := []) ?_
  rw [hwin, List.append_nil]
  exact sizedBits_finalizedWords _

/-- Settles O59: the words pushed are those of the unfinalized stream, whose bits are the stream and padding. -/
theorem unfinalizedRoundTrip : Obligations.UnfinalizedRoundTrip := by
  intro fs s hlegal hlen hf ho
  obtain ⟨t, e, hwout⟩ := execAll_pack true hlegal hlen hf ho
  refine ⟨t, _, e, hwout, fun u _ huf hwin => ?_⟩
  obtain ⟨padding, hpad⟩ := unsizedBits_unfinalizedWords (bitsOfFields fs)
  refine execAll_open_readBack true huf hlegal (tail := padding) ?_
  rw [hwin]
  exact hpad

end Sys2Proof.Machine
end

section
/-! PROOFS. The byte/word converter (spec 43_byte_word_converter.md R191 to R194): the bytes of a word and the word
of eight bytes, what the two commands do, and that the two directions are inverse. -/

namespace Sys2Proof.Machine

open Config

/-! ### The bytes of a word -/

@[simp] theorem wordBytes_length (w : Word) : (wordBytes w).length = 8 := by
  simp [wordBytes, bytesPerWord]

/-- Byte `k`, as a digit of the word to the base 256 (R65). -/
theorem byteOfWord_eq (w : Word) (k : Nat) :
    byteOfWord w k = BitVec.ofNat 8 (w.toNat / 2 ^ (56 - 8 * k)) := by
  simp [byteOfWord, W, BitVec.extractLsb', Nat.shiftRight_eq_div_pow]

/-- The eight bytes, the first byte most significant (R192). -/
theorem wordBytes_eq (w : Word) :
    wordBytes w =
      [BitVec.ofNat 8 (w.toNat / 256 ^ 7), BitVec.ofNat 8 (w.toNat / 256 ^ 6),
       BitVec.ofNat 8 (w.toNat / 256 ^ 5), BitVec.ofNat 8 (w.toNat / 256 ^ 4),
       BitVec.ofNat 8 (w.toNat / 256 ^ 3), BitVec.ofNat 8 (w.toNat / 256 ^ 2),
       BitVec.ofNat 8 (w.toNat / 256), BitVec.ofNat 8 w.toNat] := by
  simp [wordBytes, bytesPerWord, List.range_succ, byteOfWord_eq]

/-- A word is known by its bytes: each of its bits is in one of them (R67). -/
theorem wordBytes_injective : Function.Injective wordBytes := by
  intro v w h
  refine BitVec.eq_of_getLsbD_eq fun p hp => ?_
  have hv := mixedWidthView v p hp
  rw [h, mixedWidthView w p hp] at hv
  exact (Option.some.inj hv).symm

/-! ### The word of eight bytes -/

/-- Shifting a byte in: its bits are the low ones, and those of the word move up by eight. -/
theorem shiftInByte_getLsbD (acc : Word) (b : Byte) {p : Nat} (hp : p < 64) :
    (shiftInByte acc b).getLsbD p = if p < 8 then b.getLsbD p else acc.getLsbD (p - 8) := by
  simp only [shiftInByte, BitVec.getLsbD_or, BitVec.getLsbD_shiftLeft, BitVec.getLsbD_setWidth]
  by_cases h : p < 8
  · simp [h, hp]
  · simp only [h, hp, BitVec.getLsbD_of_ge b p (by omega)]
    simp

/-- A byte shifted in is a digit appended (R191). -/
theorem shiftInByte_ofNat (n : Nat) (b : Byte) :
    shiftInByte (BitVec.ofNat 64 n) b = BitVec.ofNat 64 (n * 256 + b.toNat) := by
  have hdisjoint : BitVec.ofNat 64 n <<< 8 &&& b.setWidth 64 = 0#64 := by
    refine BitVec.eq_of_getLsbD_eq fun p hp => ?_
    by_cases h : p < 8
    · simp [h]
    · simp [BitVec.getLsbD_of_ge b p (by omega)]
  rw [shiftInByte, ← BitVec.add_eq_or_of_and_eq_zero _ _ hdisjoint]
  refine BitVec.eq_of_toNat_eq ?_
  simp only [BitVec.toNat_add, BitVec.toNat_shiftLeft, BitVec.toNat_setWidth, BitVec.toNat_ofNat,
    Nat.shiftLeft_eq]
  omega

/-- The word of eight bytes, the first byte most significant (R191). -/
theorem wordOfBytes_eq (b0 b1 b2 b3 b4 b5 b6 b7 : Byte) :
    wordOfBytes [b0, b1, b2, b3, b4, b5, b6, b7] = BitVec.ofNat 64
      (b0.toNat * 256 ^ 7 + b1.toNat * 256 ^ 6 + b2.toNat * 256 ^ 5 + b3.toNat * 256 ^ 4 +
       b4.toNat * 256 ^ 3 + b5.toNat * 256 ^ 2 + b6.toNat * 256 + b7.toNat) := by
  change List.foldl shiftInByte (BitVec.ofNat 64 0) _ = _
  simp only [List.foldl_cons, List.foldl_nil, shiftInByte_ofNat]
  refine congrArg (BitVec.ofNat 64) ?_
  omega

theorem byteOfWord_shiftInByte_of_lt (acc : Word) (b : Byte) {k : Nat} (h : k < 7) :
    byteOfWord (shiftInByte acc b) k = byteOfWord acc (k + 1) := by
  refine BitVec.eq_of_getLsbD_eq fun j hj => ?_
  have hpos : 56 - 8 * k + j - 8 = 56 - 8 * (k + 1) + j := by omega
  rw [byteOfWord_getLsbD _ _ hj, byteOfWord_getLsbD _ _ hj, shiftInByte_getLsbD _ _ (by omega),
    if_neg (by omega), hpos]

theorem byteOfWord_shiftInByte_last (acc : Word) (b : Byte) :
    byteOfWord (shiftInByte acc b) 7 = b := by
  refine BitVec.eq_of_getLsbD_eq fun j hj => ?_
  rw [byteOfWord_getLsbD _ _ hj, shiftInByte_getLsbD _ _ (by omega), if_pos (by omega)]
  simp

/-- A byte shifted in drives the first byte out and comes last. -/
theorem wordBytes_shiftInByte (acc : Word) (b : Byte) :
    wordBytes (shiftInByte acc b) = (wordBytes acc).drop 1 ++ [b] := by
  simp [wordBytes, bytesPerWord, List.range_succ, byteOfWord_shiftInByte_of_lt,
    byteOfWord_shiftInByte_last]

/-- So of the bytes shifted in after those of a word, the last eight stay. -/
theorem wordBytes_foldl_shiftInByte (bs : List Byte) (acc : Word) :
    wordBytes (bs.foldl shiftInByte acc) = (wordBytes acc ++ bs).drop bs.length := by
  induction bs generalizing acc with
  | nil => simp
  | cons b bs ih =>
    have hdrop : (wordBytes acc ++ b :: bs).drop 1 = (wordBytes acc).drop 1 ++ b :: bs :=
      List.drop_append_of_le_length (by simp)
    rw [List.foldl_cons, ih, wordBytes_shiftInByte, List.append_assoc, List.singleton_append, ← hdrop,
      List.drop_drop, List.length_cons, Nat.add_comm]

theorem wordBytes_wordOfBytes {bs : List Byte} (h : bs.length = 8) : wordBytes (wordOfBytes bs) = bs := by
  rw [wordOfBytes, wordBytes_foldl_shiftInByte, h, List.drop_left' (wordBytes_length 0)]

@[simp] theorem wordOfBytes_wordBytes (w : Word) : wordOfBytes (wordBytes w) = w :=
  wordBytes_injective (wordBytes_wordOfBytes (wordBytes_length w))

/-! ### Sequences of words and of bytes -/

@[simp] theorem bytesOfWords_nil : bytesOfWords [] = [] := rfl

@[simp] theorem bytesOfWords_cons (w : Word) (ws : List Word) :
    bytesOfWords (w :: ws) = wordBytes w ++ bytesOfWords ws := rfl

theorem wordsOfBytes_group_append {group : List Byte} (h : group.length = 8) (rest : List Byte) :
    wordsOfBytes (group ++ rest) = wordOfBytes group :: wordsOfBytes rest := by
  match group, h with
  | [_, _, _, _, _, _, _, _], _ => rfl

theorem wordsOfBytes_of_length_lt {bs : List Byte} (h : bs.length < 8) : wordsOfBytes bs = [] := by
  match bs, h with
  | [], _ | [_], _ | [_, _], _ | [_, _, _], _ | [_, _, _, _], _ | [_, _, _, _, _], _
  | [_, _, _, _, _, _], _ | [_, _, _, _, _, _, _], _ => rfl

/-- There and back, the whole groups of eight bytes are left (R194 (d)). -/
theorem bytesOfWords_wordsOfBytes (bs : List Byte) :
    bytesOfWords (wordsOfBytes bs) = bs.take (bs.length - bs.length % 8) := by
  by_cases h : bs.length < 8
  · rw [wordsOfBytes_of_length_lt h, Nat.mod_eq_of_lt h, Nat.sub_self]
    rfl
  · have hgroup : (bs.take 8).length = 8 := by rw [List.length_take]; omega
    have hcount : bs.length - bs.length % 8 = 8 + ((bs.drop 8).length - (bs.drop 8).length % 8) := by
      rw [List.length_drop]; omega
    calc bytesOfWords (wordsOfBytes bs)
        = bytesOfWords (wordsOfBytes (bs.take 8 ++ bs.drop 8)) := by rw [List.take_append_drop]
      _ = bs.take 8 ++ bytesOfWords (wordsOfBytes (bs.drop 8)) := by
          rw [wordsOfBytes_group_append hgroup, bytesOfWords_cons, wordBytes_wordOfBytes hgroup]
      _ = bs.take (bs.length - bs.length % 8) := by
          rw [bytesOfWords_wordsOfBytes (bs.drop 8), hcount, List.take_add]
termination_by bs.length
decreasing_by rw [List.length_drop]; omega

/-- The other way round nothing is lost (R194 (c)). -/
theorem wordsOfBytes_bytesOfWords (ws : List Word) : wordsOfBytes (bytesOfWords ws) = ws := by
  induction ws with
  | nil => rfl
  | cons w ws ih =>
    rw [bytesOfWords_cons, wordsOfBytes_group_append (wordBytes_length w), wordOfBytes_wordBytes, ih]

/-! ### The commands -/

theorem exec_bwPack (s : State) : exec .bwPack s = execBwPack s := rfl

theorem exec_bwUnpack (w : Word) (s : State) : exec (.bwUnpack w) s = execBwUnpack w s := rfl

/-- With a group of eight bytes next, `BW_PACK` takes it and answers its word (R191). -/
theorem exec_bwPack_of_group {s : State} {group rest : List Byte} (hf : s.fault = false)
    (hlen : group.length = 8) (hleft : s.bin.drop s.binRd = group ++ rest) :
    exec .bwPack s = .next ({ s with binRd := s.binRd + 8 }.answered 0 (wordOfBytes group)) := by
  rw [exec_bwPack, execBwPack, ← respond_ok_eq_answered]
  refine command_reply hf ?_
  simp only [popBytes_eq, hleft, bytesPerWord, List.take_left' hlen, hlen]
  rfl

/-- With fewer bytes left, `BW_PACK` takes them all and answers `EXHAUSTED` (R191). -/
theorem exec_bwPack_of_short {s : State} (hf : s.fault = false) (hrd : s.binRd ≤ s.bin.length)
    (hshort : s.bin.length - s.binRd < 8) :
    exec .bwPack s = .next ({ s with binRd := s.bin.length }.answered 1 0) := by
  have htaken : ((s.bin.drop s.binRd).take 8).length = s.bin.length - s.binRd := by
    rw [List.length_take, List.length_drop]; omega
  rw [exec_bwPack, execBwPack]
  refine command_ok (r := { status := .exhausted, data := 0 }) hf ?_
  simp only [popBytes_eq, bytesPerWord, htaken, Nat.zero_add, Nat.add_sub_cancel' hrd]
  rw [if_neg hshort.ne]

theorem exec_bwUnpack_of_fault_eq_false {s : State} (w : Word) (hf : s.fault = false) :
    exec (.bwUnpack w) s = .next ({ s with bout := s.bout ++ wordBytes w }.answered 0 0) := by
  rw [exec_bwUnpack, execBwUnpack, ← respond_ok_eq_answered]
  exact command_reply hf (by rw [pushBytes_eq])

/-! ### The statements -/

/-- Settles O47: the bytes pushed are the digits of the word to the base 256. -/
theorem bwUnpackAppendsTheBytes : Obligations.BwUnpackAppendsTheBytes := by
  intro s word hf
  rw [exec_bwUnpack_of_fault_eq_false word hf, wordBytes_eq]
  rfl

/-- Settles O46, by whether a group of eight bytes is left. -/
theorem bwPackAssemblesAWord : Obligations.BwPackAssemblesAWord := by
  intro s hf hrd
  constructor
  · intro b0 b1 b2 b3 b4 b5 b6 b7 rest hleft
    rw [exec_bwPack_of_group (group := [b0, b1, b2, b3, b4, b5, b6, b7]) hf rfl hleft, wordOfBytes_eq]
    rfl
  · exact exec_bwPack_of_short hf hrd

/-- Settles O48: the bytes of a word and the word of eight bytes are inverse, for the commands and group by group
for the sequences. -/
theorem converterInverseLaws : Obligations.ConverterInverseLaws := by
  refine ⟨?_, ?_, wordsOfBytes_bytesOfWords, bytesOfWords_wordsOfBytes⟩
  · intro s t u w hf hunpack huf hleft
    rw [exec_bwUnpack_of_fault_eq_false w hf] at hunpack
    cases hunpack
    have hbytes : u.bin.drop u.binRd = wordBytes w ++ [] := by
      rw [hleft, List.append_nil]
      exact List.drop_left
    refine ⟨_, exec_bwPack_of_group huf (wordBytes_length w) hbytes, ?_⟩
    rw [wordOfBytes_wordBytes]
    rfl
  · intro bs hmod
    rw [bytesOfWords_wordsOfBytes, hmod, Nat.sub_zero, List.take_length]

end Sys2Proof.Machine
end

section
/-! PROOFS. The faults (spec 60_exceptions.md R204 to R226): the condition that raises each one and the exact state it
leaves, the refusal by a faulted block, the reset as the only way out, and the units that no command of another
reaches. -/

namespace Sys2Proof.Machine

/-! ### Fault entry -/

/-- A command whose rule raises a fault leaves the state before it, plus that fault (R204). -/
theorem command_faults {s : State} {rule : State → Result} (c : FaultCode) (hf : s.fault = false)
    (h : rule s = raise c) : command s rule = .next (s.faulted c.code) :=
  command_raise hf h

/-- A faulted block refuses every command: the check for a fault is the first of each (R205, R218). -/
theorem exec_refused {s : State} (i : Instr) (hf : s.fault = true) :
    exec i s = .next (refuse s) := by
  cases i <;> unfold exec <;> exact command_refused hf

/-! ### Command words -/

theorem step_of_runWord {s t : State} {w : CmdWord} (hp : s.program[s.index]? = some (.command w))
    (h : runWord w s = .next t) : step s = .next t.tick := by
  simp only [step, State.pending, hp, h]

theorem runWord_of_decode_error {w : CmdWord} {e : DecodeError} (s : State) (h : decode w = .error e) :
    runWord w s = illegalCommand s := by
  simp only [runWord, h]

/-- So does a faulted block every command word, known or not (R205). -/
theorem runWord_refused {s : State} (w : CmdWord) (hf : s.fault = true) :
    runWord w s = .next (refuse s) := by
  cases hd : decode w with
  | ok i => rw [runWord_of_decode s hd, exec_refused i hf]
  | error e => rw [runWord_of_decode_error s hd, illegalCommand, command_refused hf]

theorem exists_decode_eq_error {w : CmdWord} (h : w.toNat % 256 ∉ opcodes) :
    ∃ e, decode w = .error e := by
  cases hd : decode w with
  | ok i => exact absurd ((exists_decode_eq_ok_iff w).mp ⟨i, hd⟩) h
  | error e => exact ⟨e, rfl⟩

/-! ### The life-cycle checks -/

theorem not_isOpen_packer {p : Packer} : (!p.isOpen) = true ↔ p.state ≠ .opened := by
  rw [Bool.not_eq_true', ← Bool.not_eq_true, isOpen_packer]

theorem not_isOpen_unpacker {u : Unpacker} : (!u.isOpen) = true ↔ u.state ≠ .opened := by
  rw [Bool.not_eq_true', ← Bool.not_eq_true, isOpen_unpacker]

/-! ### Reads that fault -/

/-- A bit read whose checks pass ends as `readBit` does (R163). -/
theorem exec_upRbit_eq_conclude {s : State} (hf : s.fault = false) (ho : s.up.state = .opened)
    (he : s.up.sizedEof = false) : exec .upRbit s = conclude s (readBit s) := by
  rw [exec, execUpRbit, command, hf, isOpen_unpacker.mpr ho, he]
  rfl

/-- An unsized advance past the last word underruns (R162 step 1u, R216). -/
theorem advance_underrun {s : State} (hm : s.up.mode = .unsized) (hend : s.win.length ≤ s.winRd) :
    advance s = .error (.raise .upSrcUnderrun) := by
  have hpop : s.wordPop = none := wordPop_eq_none.mpr (decide_eq_true hend)
  rw [advance_of_unsized hm, advanceUnsized, hpop]

/-- So does the unsized read of a field that the current word does not hold to its end: before the field, if the word
is used up, else in the middle of it (R164, R216). -/
theorem readField_underrun {s : State} {n : Nat} (hm : s.up.mode = .unsized)
    (hend : s.win.length ≤ s.winRd) (hgt : 64 < s.up.pos + n) :
    readField n s = raise .upSrcUnderrun := by
  have hnf : s.up.mode = .sized → s.up.final = false := fun h => by rw [hm] at h; cases h
  have hadv : fieldAdvance s = .error (.raise .upSrcUnderrun) :=
    (fieldAdvance_of_not_final hnf).trans (advance_underrun hm hend)
  by_cases hp : s.up.pos < 64
  · rw [readField_of_lazyAdvance (fieldLazyAdvance_of_lt hp)]
    exact extractField_of_fieldAdvance_error hp.le hgt hadv
  · rw [readField, fieldLazyAdvance_of_ge (by omega), hadv]
    rfl

/-- The only fault of a sized field advance is the truncation: the source's end is known before it is reached (R162,
R164 (i)). -/
theorem fieldAdvance_raise_of_sized {s : State} {c : FaultCode} (hm : s.up.mode = .sized)
    (h : fieldAdvance s = .error (.raise c)) : c = .upTruncated := by
  cases hfin : s.up.final with
  | true =>
    rw [fieldAdvance_of_final hm hfin] at h
    cases h
    rfl
  | false =>
    rw [fieldAdvance_of_not_final fun _ => hfin, advance_of_sized hm] at h
    rcases advanceSized_cases s with ⟨-, e⟩ | ⟨-, -, e⟩ | ⟨-, m, -, -, e⟩ | ⟨-, m, -, -, e⟩ |
      ⟨-, m, x, rest, -, e⟩ <;> rw [e] at h <;> cases h

theorem finishField_raise {s : State} {d : Word} {c : FaultCode} (h : finishField s d = raise c) :
    c = .upTruncated := by
  rcases finishField_cases (s := s) (d := d) with ⟨-, e⟩ | ⟨-, e⟩ <;> rw [e] at h <;> cases h
  rfl

/-- So is it the only fault of a sized extraction (R164, R215). -/
theorem extractField_raise_of_sized {s : State} {n : Nat} {c : FaultCode} (hm : s.up.mode = .sized)
    (h : extractField n s = raise c) : c = .upTruncated := by
  unfold extractField at h
  dsimp only at h
  split at h
  · exact finishField_raise h
  · split at h
    next e he =>
      cases h
      exact fieldAdvance_raise_of_sized hm he
    next => exact finishField_raise h

/-- A sized field read of more bits than are left, but of some, is truncated (R164, R215). -/
theorem OpenReader.readField_truncated {s : State} (h : OpenReader s) (hm : s.up.mode = .sized)
    {n : Nat} (h64 : n ≤ 64) (hne : s.bitsLeft ≠ []) (hshort : s.bitsLeft.length < n) :
    readField n s = raise .upTruncated := by
  rcases h.lazyAdvance_cases (h.sizedEof_of_bitsLeft hne) with ⟨hnil, -⟩ | ⟨t, -, hlazy, hcons, hread⟩
  · exact absurd hnil hne
  · have hbits : t.bitsLeft = s.bitsLeft := hcons.bitsLeft
    rw [readField_of_lazyAdvance hlazy]
    rcases hread.extractField_cases h64 with ⟨u, hu, -⟩ | ⟨-, c, e⟩
    · have henough := (hu.consumed hread).enough
      rw [hbits] at henough
      omega
    · rw [e, extractField_raise_of_sized (hcons.mode.trans hm) e]

/-! ### The units -/

/-- What a command of each unit may change: its own unit's state and streams, and the fault elements and the responses,
which the units share (R226). -/
def UnitFrame (i : Instr) (s t : State) : Prop :=
  match i with
  | .pkOpen _ | .pkWbit _ | .pkWfld _ _ | .pkFlush | .pkClose | .pkNbits | .pkPos =>
    t = { s with
      pk := t.pk, wout := t.wout, fault := t.fault, fcode := t.fcode, responses := t.responses }
  | .upOpen _ | .upRbit | .upRfld _ | .upGood | .upEof | .upPos =>
    t = { s with
      up := t.up, winRd := t.winRd, fault := t.fault, fcode := t.fcode, responses := t.responses }
  | .mkEnc _ | .mkDec _ =>
    t = { s with fault := t.fault, fcode := t.fcode, responses := t.responses }
  | .bwPack =>
    t = { s with
      binRd := t.binRd, fault := t.fault, fcode := t.fcode, responses := t.responses }
  | .bwUnpack _ =>
    t = { s with bout := t.bout, fault := t.fault, fcode := t.fcode, responses := t.responses }

theorem unitFrame_refuse (i : Instr) (s : State) : UnitFrame i s (refuse s) := by
  cases i <;> rfl

theorem unitFrame_takeFault (i : Instr) (c : FaultCode) (s : State) :
    UnitFrame i s (takeFault c s) := by
  cases i <;> rfl

theorem Completed.unitFrame {i : Instr} {s u : State} {r : Reply} (h : Completed i s u r)
    (st : Status) (d : Word) : UnitFrame i s (u.respond st d) := by
  cases i with
  | pkOpen | pkWbit | pkWfld | pkFlush | pkClose | upOpen | upRbit | upRfld =>
    obtain ⟨⟨hframe, -⟩, -⟩ := h
    rw [hframe]
    rfl
  | pkNbits | pkPos | upGood | upEof | upPos | mkEnc | mkDec | bwPack | bwUnpack =>
    obtain ⟨hframe, -⟩ := h
    rw [hframe]
    rfl

theorem exec_unitFrame {i : Instr} {s t : State} (h : exec i s = .next t) : UnitFrame i s t := by
  rcases exec_cases h with ⟨-, rfl⟩ | ⟨-, u, r, hu, rfl⟩ | ⟨-, c, rfl⟩
  · exact unitFrame_refuse i s
  · exact hu.unitFrame _ _
  · exact unitFrame_takeFault i c s

/-! ### The statements -/

/-- Settles O37: the field's bits are not there, and the truncation is the only fault of a sized field read. -/
theorem truncatedFieldReadFaults : Obligations.TruncatedFieldReadFaults := by
  intro s count hinv hf ho hm hc hpos hshort
  obtain ⟨-, hup, -⟩ := hinv
  have h : OpenReader s := ⟨hup, ho⟩
  obtain ⟨h1, h64⟩ := legalCount_iff.mp hc
  have hne : s.bitsLeft ≠ [] := List.ne_nil_of_length_pos hpos
  rw [exec_upRfld_eq_conclude hf ho (badCount_eq_false.mpr ⟨h1, h64⟩) (h.sizedEof_of_bitsLeft hne),
    h.readField_truncated hm h64 hne hshort]
  rfl

/-- Settles O50: of the cases of a step, waiting and a refusal keep `FAULT`, and the others but the reset begin without
a fault. -/
theorem onlyResetClearsTheFault : Obligations.OnlyResetClearsTheFault := by
  intro s t hstep hs ht
  have hkept : t.fault ≠ s.fault := by rw [hs, ht]; decide
  rcases step_cases hstep with ⟨-, rfl⟩ | ⟨hp, -⟩ | ⟨w, i, u, -, -, hu, rfl⟩ |
    ⟨w, e, -, -, ⟨-, rfl⟩ | ⟨hf, -⟩⟩
  · exact absurd rfl hkept
  · exact hp
  · rw [exec_refused i hs] at hu
    cases hu
    exact absurd rfl hkept
  · exact absurd rfl hkept
  · rw [hs] at hf
    cases hf

/-- Settles O51: of the cases of a step, only fault entry sets `FAULT`, and it changes nothing else. -/
theorem faultsArePrecise : Obligations.FaultsArePrecise := by
  intro s t hs hstep ht
  have hset : t.fault ≠ s.fault := by rw [hs, ht]; decide
  rcases step_cases hstep with ⟨-, rfl⟩ | ⟨-, rfl⟩ | ⟨w, i, u, -, -, hu, rfl⟩ |
    ⟨w, e, -, -, ⟨-, rfl⟩ | ⟨-, rfl⟩⟩
  · exact absurd rfl hset
  · cases ht
  · rcases exec_cases hu with ⟨-, rfl⟩ | ⟨-, v, r, hv, rfl⟩ | ⟨-, c, rfl⟩
    · exact absurd rfl hset
    · obtain ⟨hfault, -⟩ := hv.fault_responses
      exact absurd hfault hset
    · exact ⟨rfl, faultCode_range c⟩
  · exact absurd rfl hset
  · exact ⟨rfl, faultCode_range .illegalCmd⟩

/-- Settles O53, by the frame of the command's unit. -/
theorem unitsAreIndependent : Obligations.UnitsAreIndependent := by
  intro i s t h
  have hframe := exec_unitFrame h
  cases i with
  | pkOpen | pkWbit | pkWfld | pkFlush | pkClose | pkNbits | pkPos
  | upOpen | upRbit | upRfld | upGood | upEof | upPos =>
    rw [hframe]
    exact ⟨rfl, rfl, rfl, rfl, rfl, rfl, rfl, rfl⟩
  | mkEnc | mkDec =>
    rw [hframe]
    exact ⟨rfl, rfl, rfl, rfl, rfl, rfl, rfl, rfl, rfl, rfl⟩
  | bwPack | bwUnpack =>
    rw [hframe]
    exact ⟨rfl, rfl, rfl, rfl, rfl, rfl, rfl, rfl, rfl⟩

/-- Settles O5: such a word decodes to no command. -/
theorem unknownOpcodeFaults : Obligations.UnknownOpcodeFaults := by
  intro s w hf hp hop
  obtain ⟨e, hd⟩ := exists_decode_eq_error hop
  refine step_of_runWord hp ?_
  rw [runWord_of_decode_error s hd]
  exact command_faults .illegalCmd hf rfl

/-- Settles O16: the life-cycle check is the first of each command (R218). -/
theorem packerLifeCycleFaults : Obligations.PackerLifeCycleFaults := by
  intro s b value count hf
  have hfault {rule : State → Result} := command_faults (rule := rule) .pkNotOpen hf
  refine ⟨fun hno => ?_, fun hidle => ?_, fun ho => ?_⟩
  · have hcheck := not_isOpen_packer.mpr hno
    simp only [exec, execPkWbit, execPkWfld, execPkFlush, execPkClose]
    exact ⟨hfault (if_pos hcheck), hfault (if_pos hcheck), hfault (if_pos hcheck),
      hfault (if_pos hcheck)⟩
  · have hcheck : (s.pk.state == .idle) = true := beq_iff_eq.mpr hidle
    simp only [exec, execPkNbits, execPkPos]
    exact ⟨hfault (if_pos hcheck), hfault (if_pos hcheck)⟩
  · rw [exec, execPkOpen]
    exact command_faults .pkAlreadyOpen hf (if_pos (isOpen_packer.mpr ho))

/-- Settles O17: the operand check follows the life-cycle check and comes before the end of the stream (R218). -/
theorem badCountsFault : Obligations.BadCountsFault := by
  intro s value count hf hbad
  have hcount : badCount count = true := badCount_eq_true.mpr hbad
  refine ⟨fun ho => ?_, fun ho => ?_, ?_⟩
  · rw [exec, execPkWfld]
    exact command_faults .pkBadCount hf (by rw [isOpen_packer.mpr ho, hcount]; rfl)
  · rw [exec, execUpRfld]
    exact command_faults .upBadCount hf (by rw [isOpen_unpacker.mpr ho, hcount]; rfl)
  · rw [exec, execMkEnc]
    exact command_faults .mkBadN hf (if_pos hcount)

/-- Settles O18: the overflow check comes last, after a legal count (R218). -/
theorem counterOverflowFaults : Obligations.CounterOverflowFaults := by
  intro s b value count hf ho
  refine ⟨fun hfull => ?_, fun h1 h64 hgt => ?_⟩
  · have hover : s.pk.wouldOverflow 1 = true := decide_eq_true (by rw [hfull]; decide)
    rw [exec, execPkWbit]
    exact command_faults .pkCntOverflow hf (by rw [isOpen_packer.mpr ho, hover]; rfl)
  · have hover : s.pk.wouldOverflow (countOperand count) = true := decide_eq_true hgt
    rw [exec, execPkWfld]
    exact command_faults .pkCntOverflow hf
      (by rw [isOpen_packer.mpr ho, badCount_eq_false.mpr ⟨h1, h64⟩, hover]; rfl)

/-- Settles O35: the life-cycle check is the first of each command (R218). -/
theorem unpackerNotOpenFaults : Obligations.UnpackerNotOpenFaults := by
  intro s count hf hidle
  have hcheck : (!s.up.isOpen) = true := not_isOpen_unpacker.mpr (by rw [hidle]; decide)
  have hfault {rule : State → Result} := command_faults (rule := rule) .upNotOpen hf
  simp only [exec, execUpRbit, execUpRfld, execUpGood, execUpEof, execUpPos]
  exact ⟨hfault (if_pos hcheck), hfault (if_pos hcheck), hfault (if_pos hcheck),
    hfault (if_pos hcheck), hfault (if_pos hcheck)⟩

/-- Settles O36: an open unpacker, and a legal count, come to the end-of-stream check (R218). -/
theorem readAtTheEndFaults : Obligations.ReadAtTheEndFaults := by
  intro s count hf ho hm hfin hle
  have hopen := isOpen_unpacker.mpr ho
  have heof : s.up.sizedEof = true := sizedEof_eq_true.mpr ⟨hm, hfin, hle⟩
  refine ⟨?_, fun h1 h64 => ?_⟩
  · rw [exec, execUpRbit]
    exact command_faults .upReadAtEof hf (by rw [hopen, heof]; rfl)
  · rw [exec, execUpRfld]
    exact command_faults .upReadAtEof hf
      (by rw [hopen, badCount_eq_false.mpr ⟨h1, h64⟩, heof]; rfl)

/-- Settles O38: the checks pass in unsized mode, and the advance that the read needs underruns. -/
theorem unsizedUnderrunFaults : Obligations.UnsizedUnderrunFaults := by
  intro s count hf ho hm hend
  have heof : s.up.sizedEof = false := sizedEof_eq_false.mpr fun h => by rw [hm] at h; cases h
  refine ⟨fun hp => ?_, fun h1 h64 hgt => ?_⟩
  · rw [exec_upRbit_eq_conclude hf ho heof, readBit, lazyAdvance_of_ge hp, advance_underrun hm hend]
    rfl
  · rw [exec_upRfld_eq_conclude hf ho (badCount_eq_false.mpr ⟨h1, h64⟩) heof,
      readField_underrun hm hend hgt]
    rfl

/-- Settles O49, by the refusal of every command word. -/
theorem faultedBlockRefusesEverything : Obligations.FaultedBlockRefusesEverything :=
  fun _ w hf hp => step_of_runWord hp (runWord_refused w hf)

end Sys2Proof.Machine
end

section
/-! PROOFS. Reset and waiting (spec 70_reset_and_hazards.md R230, R231): the two steps that run no command. -/

namespace Sys2Proof.Machine

/-- An asserted reset comes before the check for a fault: only a command word is refused (R205, R221). -/
theorem step_of_reset {s : State} (hp : s.program[s.index]? = some .reset) :
    step s = .next s.applyReset.tick := by
  simp only [step, State.pending, hp]

/-- Settles O2: the elements come from `State.reset`, the inputs and the host's side from `s`, and `tick` moves
the index. -/
theorem assertedResetRestoresTheBlock : Obligations.AssertedResetRestoresTheBlock := by
  intro s hp
  rw [step_of_reset hp]
  rfl

/-- Settles O3: with no event pending, `step` takes its first branch, which is the wait. -/
theorem idleBlockWaits : Obligations.IdleBlockWaits := by
  intro s hp
  simp only [step, State.pending, hp]

end Sys2Proof.Machine
end
